-- ==== Sys2Proof/Word.lean ====
section
/-! DEFINITION. The widths of the values of PASSY-CORE (00_scope.md R6, 30_encoding.md R80, R84). -/

namespace Sys2Proof

/-- A data byte (`BYTE` = 8 bits, R6). -/
abbrev Byte := BitVec 8

/-- A datapath word (`WORD` = 32 bits, R6); `+` on it is the spec's `+32` (R114). -/
abbrev Word := BitVec 32

/-- A command word (`CMDW` = 16 bits, R80). -/
abbrev Cmd := BitVec 16

/-- A response word (`RSPW` = 16 bits, R84). -/
abbrev Rsp := BitVec 16

end Sys2Proof
end

