-- ==== Sys2Proof/Syntax.lean ====
section
/-! DEFINITION. The sixteen commands (30_encoding.md R82), one constructor per row of spec/opcode_table.json. -/

namespace Sys2Proof

/-- A decoded command. An operand of class `imm8` or `idx` is the whole byte `opd` (R81): an index that is out of
range is still this command and is refused when it executes (R83 step 4, R220). -/
inductive Instr where
  /-- `NOP` (R181) -/
  | nop
  /-- `SRESET` (R185) -/
  | sreset
  /-- `START.HASH` (R182) -/
  | startHash
  /-- `START.HMAC` (R183) -/
  | startHmac
  /-- `START.DERIVE` (R184) -/
  | startDerive
  /-- `PUSH imm8` (R200) -/
  | push (b : Byte)
  /-- `END` (R203) -/
  | endStream
  /-- `RD.STATUS` (R221) -/
  | rdStatus
  /-- `RD.ERR` (R229) -/
  | rdErr
  /-- `RD.DIGEST idx` (R222) -/
  | rdDigest (idx : Byte)
  /-- `RD.PW idx` (R223) -/
  | rdPw (idx : Byte)
  /-- `RD.FRAG idx` (R224) -/
  | rdFrag (idx : Byte)
  /-- `RD.K0 idx` (R225) -/
  | rdK0 (idx : Byte)
  /-- `RD.IPAD idx` (R226) -/
  | rdIpad (idx : Byte)
  /-- `RD.OPAD idx` (R227) -/
  | rdOpad (idx : Byte)
  /-- `RD.IH idx` (R228) -/
  | rdIh (idx : Byte)
deriving DecidableEq, Repr

end Sys2Proof
end

