-- ==== Sys2Proof/WellFormed.lean ====
section
/-! DEFINITION. Which decoded commands have a legal operand (30_encoding.md R81). -/

namespace Sys2Proof

/-- The operand is legal in the sense of R81: a class `none` command has no operand, every `imm8` byte is legal, an
`idx` byte is legal when it is below the size of the command's space (sizes of 20_memory.md R63). Legality is no part
of decoding (R83): a command with an illegal index decodes, and executes to `ERR_INDEX` (R220). -/
def Instr.WellFormed : Instr → Bool
  | .nop | .sreset | .startHash | .startHmac | .startDerive => true
  | .push _ => true
  | .endStream | .rdStatus | .rdErr => true
  | .rdDigest i => decide (i.toNat < 20)
  | .rdPw i => decide (i.toNat < 12)
  | .rdFrag i => decide (i.toNat < 10)
  | .rdK0 i => decide (i.toNat < 64)
  | .rdIpad i => decide (i.toNat < 64)
  | .rdOpad i => decide (i.toNat < 64)
  | .rdIh i => decide (i.toNat < 20)

end Sys2Proof
end

