-- ==== Sys2Proof/Decode.lean ====
section
/-! DEFINITION. Decoding and encoding of command words (30_encoding.md R80 to R86): the decoder of R83, the encoder
and the opcode map of R82 as a table, and the reserved words of R85. -/

namespace Sys2Proof

/-- Field `opc` = bits 15:8 (R80). -/
def opcOf (w : Cmd) : Byte := w.extractLsb' 8 8

/-- Field `opd` = bits 7:0 (R80). -/
def opdOf (w : Cmd) : Byte := w.extractLsb' 0 8

/-- Why a word is a reserved encoding (R85). -/
inductive Reserved where
  /-- `opc` is not one of the sixteen values of R82. -/
  | unknownOpcode (opc : Byte)
  /-- A class `none` command with `opd` ≠ 0. -/
  | operandNotZero (opc opd : Byte)
deriving DecidableEq, Repr

/-- R83 step 3: a class `none` command needs `opd` = 0. -/
def decodeNone (i : Instr) (w : Cmd) : Except Reserved Instr :=
  if opdOf w = 0x00#8 then .ok i else .error (.operandNotZero (opcOf w) (opdOf w))

/-- The decoder of R83; total, and a function of the word alone (R86). -/
def decode (w : Cmd) : Except Reserved Instr :=
  if opcOf w = 0x00#8 then decodeNone .nop w
  else if opcOf w = 0x01#8 then decodeNone .sreset w
  else if opcOf w = 0x10#8 then decodeNone .startHash w
  else if opcOf w = 0x11#8 then decodeNone .startHmac w
  else if opcOf w = 0x12#8 then decodeNone .startDerive w
  else if opcOf w = 0x20#8 then .ok (.push (opdOf w))
  else if opcOf w = 0x21#8 then decodeNone .endStream w
  else if opcOf w = 0x30#8 then decodeNone .rdStatus w
  else if opcOf w = 0x31#8 then decodeNone .rdErr w
  else if opcOf w = 0x40#8 then .ok (.rdDigest (opdOf w))
  else if opcOf w = 0x41#8 then .ok (.rdPw (opdOf w))
  else if opcOf w = 0x42#8 then .ok (.rdFrag (opdOf w))
  else if opcOf w = 0x48#8 then .ok (.rdK0 (opdOf w))
  else if opcOf w = 0x49#8 then .ok (.rdIpad (opdOf w))
  else if opcOf w = 0x4A#8 then .ok (.rdOpad (opdOf w))
  else if opcOf w = 0x4B#8 then .ok (.rdIh (opdOf w))
  else .error (.unknownOpcode (opcOf w))

/-- The opcode of a command (R82). -/
def opcodeByte : Instr → Byte
  | .nop => 0x00#8
  | .sreset => 0x01#8
  | .startHash => 0x10#8
  | .startHmac => 0x11#8
  | .startDerive => 0x12#8
  | .push _ => 0x20#8
  | .endStream => 0x21#8
  | .rdStatus => 0x30#8
  | .rdErr => 0x31#8
  | .rdDigest _ => 0x40#8
  | .rdPw _ => 0x41#8
  | .rdFrag _ => 0x42#8
  | .rdK0 _ => 0x48#8
  | .rdIpad _ => 0x49#8
  | .rdOpad _ => 0x4A#8
  | .rdIh _ => 0x4B#8

/-- The operand byte of a command, 0x00 for class `none` (R81). -/
def operandByte : Instr → Byte
  | .nop | .sreset | .startHash | .startHmac | .startDerive | .endStream | .rdStatus | .rdErr => 0x00#8
  | .push b => b
  | .rdDigest i | .rdPw i | .rdFrag i | .rdK0 i | .rdIpad i | .rdOpad i | .rdIh i => i

/-- The command word of a command: `opc` in bits 15:8, `opd` in bits 7:0 (R80). -/
def encode (i : Instr) : Cmd := opcodeByte i ++ operandByte i

/-- The opcode map of R82 as rows (mnemonic, match, mask). -/
def opcodeRows : List (String × Cmd × Cmd) :=
  [ ("NOP", 0x0000#16, 0xFFFF#16), ("SRESET", 0x0100#16, 0xFFFF#16), ("START.HASH", 0x1000#16, 0xFFFF#16),
    ("START.HMAC", 0x1100#16, 0xFFFF#16), ("START.DERIVE", 0x1200#16, 0xFFFF#16), ("PUSH", 0x2000#16, 0xFF00#16),
    ("END", 0x2100#16, 0xFFFF#16), ("RD.STATUS", 0x3000#16, 0xFFFF#16) ] ++
  [ ("RD.ERR", 0x3100#16, 0xFFFF#16), ("RD.DIGEST", 0x4000#16, 0xFF00#16), ("RD.PW", 0x4100#16, 0xFF00#16),
    ("RD.FRAG", 0x4200#16, 0xFF00#16), ("RD.K0", 0x4800#16, 0xFF00#16), ("RD.IPAD", 0x4900#16, 0xFF00#16),
    ("RD.OPAD", 0x4A00#16, 0xFF00#16), ("RD.IH", 0x4B00#16, 0xFF00#16) ]

/-- The mnemonic of a command (R82). -/
def mnemonicOf : Instr → String
  | .nop => "NOP"
  | .sreset => "SRESET"
  | .startHash => "START.HASH"
  | .startHmac => "START.HMAC"
  | .startDerive => "START.DERIVE"
  | .push _ => "PUSH"
  | .endStream => "END"
  | .rdStatus => "RD.STATUS"
  | .rdErr => "RD.ERR"
  | .rdDigest _ => "RD.DIGEST"
  | .rdPw _ => "RD.PW"
  | .rdFrag _ => "RD.FRAG"
  | .rdK0 _ => "RD.K0"
  | .rdIpad _ => "RD.IPAD"
  | .rdOpad _ => "RD.OPAD"
  | .rdIh _ => "RD.IH"

/-- The opcodes of class `none` (R82). -/
def noneOpcodes : List Byte := [0x00#8, 0x01#8, 0x10#8, 0x11#8, 0x12#8, 0x21#8, 0x30#8, 0x31#8]

/-- The opcodes of classes `imm8` and `idx` (R82). -/
def byteOpcodes : List Byte := [0x20#8, 0x40#8, 0x41#8, 0x42#8, 0x48#8, 0x49#8, 0x4A#8, 0x4B#8]

/-- A reserved encoding as R85 words it: an `opc` that is not in R82, or a class `none` command with `opd` ≠ 0. -/
def reservedWord (w : Cmd) : Bool :=
  !(noneOpcodes.contains (opcOf w) || byteOpcodes.contains (opcOf w)) ||
    (noneOpcodes.contains (opcOf w) && opdOf w != 0x00#8)

/-- The host's name for the decoder: the low `nbits` bits of `w` (the opcode table gives every row 16) as one command
word; log entry 14. -/
def decodeTableWord (nbits w : Nat) : Option Instr :=
  (decode (BitVec.ofNat 16 (w % 2 ^ nbits))).toOption

end Sys2Proof
end

