-- ==== Sys2Proof/Config.lean ====
section
/-! DEFINITION. What an implementation fixes (00_scope.md R6) and the free values of the unspecified
register contents (10_state.md R50, 93_implementation_defined.md U1). -/

namespace Sys2Proof

/-- The two parameters of R6 that a model may take as arguments (D6, D7, U5, U11). -/
structure Params where
  /-- `LEN_BITS`: the width of the byte-length counter. -/
  lenBits : Nat
  /-- `FOLD_LATIN1`: whether the lowercase fold also maps 0xC0..0xDE except 0xD7. -/
  foldLatin1 : Bool
deriving DecidableEq, Repr

/-- The range R6 allows for `LEN_BITS`. -/
abbrev Params.Legal (p : Params) : Prop := 7 ≤ p.lenBits ∧ p.lenBits ≤ 61

/-- The values this hardware takes: `LEN_BITS` = 61 and `FOLD_LATIN1` = 0 (R6).
DESIGN CHOICE of the spec (D6, D7), log entry 8; unsafe where a chip folds bytes above 0x7F. -/
def Config.hw : Params := { lenBits := 61, foldLatin1 := false }

/-- The unspecified content of a 32-bit data register after the `draw`-th reset (R50, U1): a free value, log entry 4.
Register numbers: `H` 0..4, `A`..`E` 5..9, `W` 10..89. -/
opaque Config.freeWord (draw reg : Nat) : Word

/-- The unspecified content of an 8-bit data register after the `draw`-th reset (R50, U1): a free value, log entry 4.
Register numbers: `BLK` 0..63, `K0` 64..127, `IH` 128..147, `PW` 148..159, `FR` 160..169. -/
opaque Config.freeByte (draw reg : Nat) : Byte

end Sys2Proof
end

