-- ==== Sys2Proof/Machine/State.lean ====
section
/-! DEFINITION. The architectural state of PASSY-CORE (10_state.md R20 to R50), what the host may do (R20, R280), the
reasons a step may stop (none), and the state after reset (R50). -/

namespace Sys2Proof.Machine

/-- Faults: none exists. Every command word in every state has one response and one next state
(93_implementation_defined.md, closing sentence; R250, R260), so no constructor, nobody raises one; log entry 12 (safe). -/
inductive Fault where
deriving DecidableEq, Repr

/-- Refusals of the model. -/
inductive Refusal where
  /-- An arm of `exec` whose meaning is not written; no arm of this model answers it (safe). -/
  | notModelled (mnemonic : String)
deriving DecidableEq, Repr

/-- `OP` (R41): 0 IDLE, 1 HASH, 2 HMAC, 3 DERIVE. -/
inductive Op where
  | idle
  | hash
  | hmac
  | derive
deriving DecidableEq, Repr

/-- `PHASE` (R42): 0 KEY, 1 MSG. -/
inductive Phase where
  | key
  | msg
deriving DecidableEq, Repr

/-- The error conditions of R251. -/
inductive Err where
  /-- `ERR_ILLEGAL` (R252) -/
  | illegal
  /-- `ERR_STATE` (R253) -/
  | state
  /-- `ERR_INDEX` (R254) -/
  | index
  /-- `ERR_NOTVALID` (R255) -/
  | notValid
  /-- `ERR_LENOVF` (R256) -/
  | lenOvf
deriving DecidableEq, Repr

/-- The seven host-readable index spaces (R63). -/
inductive Space where
  | digest
  | pw
  | frag
  | k0
  | ipad
  | opad
  | ih
deriving DecidableEq, Repr

/-- The working variables `A`, `B`, `C`, `D`, `E` (R22). -/
structure Vars where
  a : Word
  b : Word
  c : Word
  d : Word
  e : Word
deriving DecidableEq, Repr

/-- What the host may cause (R20, R280): give a command word, or a hard reset. -/
inductive HostEvent where
  | command (w : Cmd)
  | hardReset
deriving DecidableEq, Repr

/-- The state: the SHA1CE registers (R21 to R27), the result and diagnostic registers (R31, R33 to R35), the control
registers (R41 to R45), and three fields of the model's own (`rsp`, `port`, `draws`). -/
structure State where
  /-- `H[0..4]` (R21) -/
  h : Vector Word 5
  /-- `A`..`E` (R22) -/
  vars : Vars
  /-- `W[0..79]` (R23) -/
  w : Vector Word 80
  /-- `T` (R24) -/
  t : BitVec 7
  /-- `BLK[0..63]` (R25) -/
  blk : Vector Byte 64
  /-- `FILL` (R26) -/
  fill : BitVec 7
  /-- `LEN` (R27) -/
  len : BitVec 61
  /-- `K0[0..63]` (R31) -/
  k0 : Vector Byte 64
  /-- `IH[0..19]` (R33) -/
  ih : Vector Byte 20
  /-- `PW[0..11]` (R34) -/
  pw : Vector Byte 12
  /-- `FR[0..9]` (R35) -/
  fr : Vector Byte 10
  /-- `OP` (R41) -/
  op : Op
  /-- `PHASE` (R42) -/
  phase : Phase
  /-- `DV` (R43) -/
  dv : Bool
  /-- `PV` (R43) -/
  pv : Bool
  /-- `KV` (R43) -/
  kv : Bool
  /-- `IHV` (R43) -/
  ihv : Bool
  /-- `FAULT` (R44) -/
  fault : Bool
  /-- `ERRCODE` (R45) -/
  errcode : Byte
  /-- The model's own: the response word last produced (R84), none before the first and after a hard reset.
  DESIGN CHOICE, log entry 2 (safe). -/
  rsp : Option Rsp
  /-- The model's own: the events the host will still cause, the next one first (R67). DESIGN CHOICE, log entry 1 (safe). -/
  port : List HostEvent
  /-- The model's own: how many times free values have been drawn. DESIGN CHOICE, log entry 4 (safe). -/
  draws : Nat
deriving DecidableEq, Repr

/-- The state after reset (R50). The control registers hold the values R50 states; every data register, which R50
leaves unspecified, holds zero: DESIGN CHOICE, log entry 3 (unsafe). -/
def State.reset : State where
  h := Vector.replicate 5 0
  vars := { a := 0, b := 0, c := 0, d := 0, e := 0 }
  w := Vector.replicate 80 0
  t := 0
  blk := Vector.replicate 64 0
  fill := 0
  len := 0
  k0 := Vector.replicate 64 0
  ih := Vector.replicate 20 0
  pw := Vector.replicate 12 0
  fr := Vector.replicate 10 0
  op := .idle
  phase := .key
  dv := false
  pv := false
  kv := false
  ihv := false
  fault := false
  errcode := 0
  rsp := none
  port := []
  draws := 0

end Sys2Proof.Machine
end

