-- ==== Sys2Proof/Machine/Operands.lean ====
section
/-! DEFINITION. Notation of 00_scope.md section 5 (loops, register files, rotation, byte conversions), the constant ROMs
(10_state.md R28, R29, R36 to R38) and the index spaces (20_memory.md R63). -/

namespace Sys2Proof.Machine

/-! ### Loops and register files -/

/-- `for i in start..start+count-1: s <- f i s`, in that order. Irreducible, so that no defeq check unrolls a loop;
`decide +kernel` still evaluates it. -/
@[irreducible] def forUp {σ : Type} (f : Nat → σ → σ) : (start count : Nat) → σ → σ
  | _, 0, s => s
  | i, n + 1, s => forUp f (i + 1) n (f i s)

/-- `X[i]`; an index that no rule uses (beyond the file) reads 0 (log entry 7). -/
def getAt {n k : Nat} (x : Vector (BitVec k) n) (i : Nat) : BitVec k := x.getD i 0

/-- `X[i] <- v`; an index that no rule uses (beyond the file) writes nothing (log entry 7). -/
def setAt {n k : Nat} (x : Vector (BitVec k) n) (i : Nat) (v : BitVec k) : Vector (BitVec k) n :=
  x.setIfInBounds i v

/-! ### Words and bytes -/

/-- `rotl32(x, n)` for 0 < n < 32 (00_scope.md section 5, R114). -/
def rotl32 (x : Word) (n : Nat) : Word := (x <<< n) ||| (x >>> (32 - n))

/-- `be32` (00_scope.md section 5): the first byte is the most significant (R60). -/
def be32 (b0 b1 b2 b3 : Byte) : Word := b0 ++ b1 ++ b2 ++ b3

/-- `byte_of_word(w, k)` = `w[31-8k : 24-8k]` for k in 0..3. -/
def byteOfWord (w : Word) (k : Nat) : Byte := w.extractLsb' (24 - 8 * k) 8

/-- `be64_byte(n, k)` = `n[63-8k : 56-8k]` for k in 0..7. -/
def be64Byte (n : BitVec 64) (k : Nat) : Byte := n.extractLsb' (56 - 8 * k) 8

/-! ### Constant ROMs -/

/-- `IVROM[0..4]` (R28). PRESUMED by the spec itself (G1), log entry 9 (unsafe). -/
def ivrom : Vector Word 5 := #v[0x67452301, 0xEFCDAB89, 0x98BADCFE, 0x10325476, 0xC3D2E1F0]

/-- `KROM[0..3]` (R29). -/
def krom : Vector Word 4 := #v[0x5A827999, 0x6ED9EBA1, 0x8F1BBCDC, 0xCA62C1D6]

/-- `ALPHA[0..31]`: the ASCII codes of the Passy alphabet (R36). -/
def alphaRom : Vector Byte 32 :=
  #v[0x41, 0x42, 0x43, 0x44, 0x45, 0x46, 0x47, 0x48, 0x61, 0x62, 0x63, 0x64, 0x65, 0x66, 0x67, 0x68,
     0x32, 0x33, 0x34, 0x35, 0x36, 0x37, 0x38, 0x39, 0x23, 0x24, 0x25, 0x2A, 0x2B, 0x3D, 0x40, 0x3F]

/-- `HEXROM[0..15]`: the ASCII codes of the lowercase hexadecimal digits (R37). -/
def hexRom : Vector Byte 16 :=
  #v[0x30, 0x31, 0x32, 0x33, 0x34, 0x35, 0x36, 0x37, 0x38, 0x39, 0x61, 0x62, 0x63, 0x64, 0x65, 0x66]

/-- `IPADC` (R38). -/
def ipadC : Byte := 0x36

/-- `OPADC` (R38). -/
def opadC : Byte := 0x5C

/-- The padding marker (R38, R104). -/
def padMark : Byte := 0x80

/-- The padding filler (R38, R104). -/
def padFill : Byte := 0x00

/-! ### Views and index spaces -/

/-- `DIGEST[i]` as a view of `H` (R30). -/
def digestByte (h : Vector Word 5) (i : Nat) : Byte := byteOfWord (getAt h (i / 4)) (i % 4)

/-- `DIGEST[0..19]` (R30). -/
def digestView (h : Vector Word 5) : Vector Byte 20 := Vector.ofFn fun i => digestByte h i.val

/-- Size of an index space (R63). -/
def spaceSize : Space → Nat
  | .digest => 20
  | .pw => 12
  | .frag => 10
  | .k0 => 64
  | .ipad => 64
  | .opad => 64
  | .ih => 20

/-- `MemRead(X, i, 1)`: the byte at index `i` of a space (R63, R30 to R35); `IPAD` and `OPAD` are views of `K0` (R32). -/
def spaceByte (x : Space) (i : Nat) (s : State) : Byte :=
  match x with
  | .digest => digestByte s.h i
  | .pw => getAt s.pw i
  | .frag => getAt s.fr i
  | .k0 => getAt s.k0 i
  | .ipad => getAt s.k0 i ^^^ ipadC
  | .opad => getAt s.k0 i ^^^ opadC
  | .ih => getAt s.ih i

end Sys2Proof.Machine
end

