-- ==== Sys2Proof/Machine/Flags.lean ====
section
/-! DEFINITION. Flags and codes: `OP` and `PHASE` codes (10_state.md R41, R42), the valid flags (R43), the `STATUS` view
(R46) and the error codes (60_exceptions.md R251). -/

namespace Sys2Proof.Machine

/-- The code of `OP` (R41). -/
def opCode : Op → BitVec 2
  | .idle => 0
  | .hash => 1
  | .hmac => 2
  | .derive => 3

/-- The code of `PHASE` (R42). -/
def phaseCode : Phase → BitVec 1
  | .key => 0
  | .msg => 1

/-- `STATUS` (R46): bit 7 `FAULT`, 6 `IHV`, 5 `KV`, 4 `PV`, 3 `DV`, 2 `PHASE`, 1:0 `OP`. -/
def statusView (s : State) : Byte :=
  BitVec.ofBool s.fault ++ BitVec.ofBool s.ihv ++ BitVec.ofBool s.kv ++ BitVec.ofBool s.pv ++ BitVec.ofBool s.dv ++
    phaseCode s.phase ++ opCode s.op

/-- Clears the four valid flags (R43: every accepted `START.*`). -/
def clearValid (s : State) : State := { s with dv := false, pv := false, kv := false, ihv := false }

/-- `flag(X)`: the valid flag that gates a space (R63). -/
def spaceValid (x : Space) (s : State) : Bool :=
  match x with
  | .digest => s.dv
  | .pw => s.pv
  | .frag => s.pv
  | .k0 => s.kv
  | .ipad => s.kv
  | .opad => s.kv
  | .ih => s.ihv

/-- The error codes (R251). -/
def errCode : Err → Byte
  | .illegal => 0x01
  | .state => 0x02
  | .index => 0x03
  | .notValid => 0x04
  | .lenOvf => 0x05

end Sys2Proof.Machine
end

