-- ==== Sys2Proof/Machine/Ops.lean ====
section
/-! DEFINITION. The shared operations every command is built from: the two ways a command ends (`respond OK`, and taking an
error, 60_exceptions.md R250), reset of the registers (10_state.md R50), taking an event from the port, and the frame
of the indexed reads (45_cmd_read.md R220). There is no return from an error beside it: R260, "There is nothing to
return from". -/

namespace Sys2Proof.Machine

/-- `respond OK(d)`: response word 0x00dd (R84). -/
def respond (d : Byte) (s : State) : State := { s with rsp := some (0x00#8 ++ d) }

/-- `raise Err(code)`, the error response (R250): `FAULT` <- 1, `ERRCODE` <- code if it was 0x00 (R45), response word
0xcc00, and nothing else changes. -/
def raiseErr (e : Err) (s : State) : State :=
  { s with
    fault := true
    errcode := if s.errcode = 0x00#8 then errCode e else s.errcode
    rsp := some (errCode e ++ 0x00#8) }

/-- Sets `SEQ` = (`OP`, `PHASE`) (R40). -/
def setSeq (o : Op) (p : Phase) (s : State) : State := { s with op := o, phase := p }

/-- The SHA1CE registers (R21 to R27) of `r`, all else of `s`. An operation that feeds bytes to SHA1CE is written through it, so
that it can be read off, by `rfl`, that the operation writes no other register. -/
def onEngine (s r : State) : State :=
  { s with h := r.h, vars := r.vars, w := r.w, t := r.t, blk := r.blk, fill := r.fill, len := r.len }

/-- Every register to its reset value (R50): control registers to the stated values, data registers to free values
(unspecified, U1, U2), log entry 4. The port and the response are not registers of the block. -/
def resetRegs (s : State) : State :=
  { s with
    h := Vector.ofFn fun i => Config.freeWord s.draws i.val
    vars := { a := Config.freeWord s.draws 5, b := Config.freeWord s.draws 6, c := Config.freeWord s.draws 7,
              d := Config.freeWord s.draws 8, e := Config.freeWord s.draws 9 }
    w := Vector.ofFn fun i => Config.freeWord s.draws (10 + i.val)
    t := 0
    blk := Vector.ofFn fun i => Config.freeByte s.draws i.val
    fill := 0
    len := 0
    k0 := Vector.ofFn fun i => Config.freeByte s.draws (64 + i.val)
    ih := Vector.ofFn fun i => Config.freeByte s.draws (128 + i.val)
    pw := Vector.ofFn fun i => Config.freeByte s.draws (148 + i.val)
    fr := Vector.ofFn fun i => Config.freeByte s.draws (160 + i.val)
    op := .idle
    phase := .key
    dv := false
    pv := false
    kv := false
    ihv := false
    fault := false
    errcode := 0x00
    draws := s.draws + 1 }

/-- The hard reset event (R280): the registers take their reset values, and there is no response (log entries 2, 5). -/
def hardReset (s : State) : State := { resetRegs s with rsp := none }

/-- The engine takes the host's next event, if there is one (R20, R67; log entry 1). -/
def takeEvent (s : State) : Option (HostEvent × State) :=
  match s.port with
  | [] => none
  | ev :: rest => some (ev, { s with port := rest })

/-- The common frame of the indexed reads (R220): the index check comes before the validity check (R257). -/
def readIndexed (x : Space) (idx : Byte) (s : State) : State :=
  if spaceSize x ≤ idx.toNat then raiseErr .index s
  else if spaceValid x s = false then raiseErr .notValid s
  else respond (spaceByte x idx.toNat s) s

end Sys2Proof.Machine
end

