-- ==== Sys2Proof/Machine/Read.lean ====
section
/-! DEFINITION. The read commands (45_cmd_read.md). -/

namespace Sys2Proof.Machine

/-- `RD.STATUS` (R221). -/
def execRdStatus (s : State) : Host.Outcome State Fault Refusal := .next (respond (statusView s) s)

/-- `RD.ERR` (R229). -/
def execRdErr (s : State) : Host.Outcome State Fault Refusal := .next (respond s.errcode s)

/-- `RD.DIGEST` (R222). -/
def execRdDigest (idx : Byte) (s : State) : Host.Outcome State Fault Refusal := .next (readIndexed .digest idx s)

/-- `RD.PW` (R223). -/
def execRdPw (idx : Byte) (s : State) : Host.Outcome State Fault Refusal := .next (readIndexed .pw idx s)

/-- `RD.FRAG` (R224). -/
def execRdFrag (idx : Byte) (s : State) : Host.Outcome State Fault Refusal := .next (readIndexed .frag idx s)

/-- `RD.K0` (R225). -/
def execRdK0 (idx : Byte) (s : State) : Host.Outcome State Fault Refusal := .next (readIndexed .k0 idx s)

/-- `RD.IPAD` (R226). -/
def execRdIpad (idx : Byte) (s : State) : Host.Outcome State Fault Refusal := .next (readIndexed .ipad idx s)

/-- `RD.OPAD` (R227). -/
def execRdOpad (idx : Byte) (s : State) : Host.Outcome State Fault Refusal := .next (readIndexed .opad idx s)

/-- `RD.IH` (R228). -/
def execRdIh (idx : Byte) (s : State) : Host.Outcome State Fault Refusal := .next (readIndexed .ih idx s)

end Sys2Proof.Machine
end

