-- ==== Sys2Proof/Machine/Sha1.lean ====
section
/-! DEFINITION. SHA1CE, the SHA-1 compression engine: the micro-operations of 40_sha1_engine.md (R101 to R111). None can raise
an error (R100). The operations that hold a loop are irreducible: a defeq check that unrolls 80 rounds does not end. What they
write and keep is in Laws/State.lean and Laws/Engine.lean; `decide +kernel` still evaluates them. -/

namespace Sys2Proof.Machine

/-! ### Compressing one block -/

/-- One word of `LoadW` (R105): four block bytes, big-endian. -/
def blockWord (blk : Vector Byte 64) (t : Nat) : Word :=
  be32 (getAt blk (4 * t)) (getAt blk (4 * t + 1)) (getAt blk (4 * t + 2)) (getAt blk (4 * t + 3))

/-- One word of `ExpandW` (R106), for t in 16..79. -/
def expandWord (w : Vector Word 80) (t : Nat) : Word :=
  rotl32 (getAt w (t - 3) ^^^ getAt w (t - 8) ^^^ getAt w (t - 14) ^^^ getAt w (t - 16)) 1

/-- `LoadW` (R105). -/
@[irreducible] def loadW (s : State) : State :=
  { s with w := forUp (fun t w => setAt w t (blockWord s.blk t)) 0 16 s.w }

/-- `ExpandW` (R106). -/
@[irreducible] def expandW (s : State) : State :=
  { s with w := forUp (fun t w => setAt w t (expandWord w t)) 16 64 s.w }

/-- The working variables that `LoadVars` takes from `H` (R107). -/
def varsOf (h : Vector Word 5) : Vars :=
  { a := getAt h 0, b := getAt h 1, c := getAt h 2, d := getAt h 3, e := getAt h 4 }

/-- `LoadVars` (R107). -/
def loadVars (s : State) : State := { s with vars := varsOf s.h }

/-- `f(t, b, c, d)` (R109): Ch, Parity, Maj, Parity; the complement is within 32 bits. -/
def roundFn (t : Nat) (b c d : Word) : Word :=
  if t < 20 then (b &&& c) ||| (~~~b &&& d)
  else if t < 40 then b ^^^ c ^^^ d
  else if t < 60 then (b &&& c) ||| (b &&& d) ||| (c &&& d)
  else b ^^^ c ^^^ d

/-- `K(t)` = `KROM[t div 20]` (R109, R29). -/
def roundConst (t : Nat) : Word := getAt krom (t / 20)

/-- `Round(t)` on the working variables (R108), `wt` being `W[t]`. -/
def roundVars (t : Nat) (wt : Word) (v : Vars) : Vars :=
  { a := rotl32 v.a 5 + roundFn t v.b v.c v.d + v.e + roundConst t + wt
    b := v.a
    c := rotl32 v.b 30
    d := v.c
    e := v.d }

/-- The 80 rounds of `Compress` (R108, R111); all of them, always (R116). -/
@[irreducible] def rounds (s : State) : State :=
  { s with vars := forUp (fun t v => roundVars t (getAt s.w t) v) 0 80 s.vars }

/-- The sums of `AddIn` (R110). -/
def addVars (h : Vector Word 5) (v : Vars) : Vector Word 5 :=
  #v[getAt h 0 + v.a, getAt h 1 + v.b, getAt h 2 + v.c, getAt h 3 + v.d, getAt h 4 + v.e]

/-- `AddIn` (R110), at the end of every block (90_conflicts.md C1). -/
def addIn (s : State) : State := { s with h := addVars s.h s.vars }

/-- `Compress` (R111). The loop variable `T` of the loops above is a bound variable and the register ends at 0, as R24
allows (log entry 6). -/
@[irreducible] def compress (s : State) : State :=
  { addIn (rounds (loadVars (expandW (loadW s)))) with t := 0 }

/-! ### Feeding bytes -/

/-- `ShaInit` (R101). -/
def shaInit (s : State) : State := { s with h := ivrom, len := 0, fill := 0 }

/-- The first two lines of `Put` (R102): the byte goes to `BLK[FILL]`, `FILL` counts it. -/
def storeByte (b : Byte) (s : State) : State :=
  { s with blk := setAt s.blk s.fill.toNat b, fill := s.fill + 1 }

/-- `Put` (R102). -/
def put (b : Byte) (s : State) : State :=
  onEngine s (if (storeByte b s).fill = 64 then { compress (storeByte b s) with fill := 0 } else storeByte b s)

/-- `Absorb` (R103). -/
def absorb (b : Byte) (s : State) : State := put b { s with len := s.len + 1 }

/-- `while FILL != 56: Put(0x00)` (R104), with a bound on the number of turns. -/
@[irreducible] def padZeros : Nat → State → State
  | 0, s => s
  | n + 1, s => if s.fill = 56 then s else padZeros n (put padFill s)

/-- The message length in bits, `zext_64(L) * 8` (R104). -/
def bitLength (len : BitVec 61) : BitVec 64 := len.setWidth 64 * 8

/-- `Finalize` (R104). 128 turns are enough from every value of the 7-bit `FILL` (log entry 7). -/
def finalize (s : State) : State :=
  onEngine s (forUp (fun k r => put (be64Byte (bitLength s.len) k) r) 0 8 (padZeros 128 (put padMark s)))

end Sys2Proof.Machine
end

