-- ==== Sys2Proof/Machine/Hmac.lean ====
section
/-! DEFINITION. HMACW, the HMAC-SHA1 wrapper: the micro-operations of 41_hmac_wrapper.md (R141 to R144). The block size is 64
(R147); none can raise an error. -/

namespace Sys2Proof.Machine

/-- `KeyCapture` (R141). -/
def keyCapture (b : Byte) (s : State) : State :=
  absorb b (if s.len.toNat < 64 then { s with k0 := setAt s.k0 s.len.toNat b } else s)

/-- A digest right-padded with zeros to 64 bytes: what a hashed key leaves in `K0` (R142). -/
def digestKey (h : Vector Word 5) : Vector Byte 64 :=
  Vector.ofFn fun i => if i.val < 20 then digestByte h i.val else 0x00

/-- The long-key branch of R142: a key of more than 64 bytes is hashed down. -/
def hashLongKey (s : State) : State :=
  if 64 < s.len.toNat then { finalize s with k0 := digestKey (finalize s).h } else s

/-- `for i in 0..63: Absorb(K0[i] ^ pad)` (R142, R144). -/
def absorbPad (pad : Byte) (s : State) : State :=
  onEngine s (forUp (fun i r => absorb (getAt r.k0 i ^^^ pad) r) 0 64 s)

/-- `for i in 0..19: Absorb(IH[i])` (R144). -/
def absorbInnerHash (s : State) : State :=
  onEngine s (forUp (fun i r => absorb (getAt r.ih i) r) 0 20 s)

/-- `KeyNormalizeAndInnerStart` (R142). -/
def keyNormalizeAndInnerStart (s : State) : State :=
  absorbPad ipadC (shaInit { hashLongKey s with kv := true })

/-- `InnerFinish` (R143). -/
def innerFinish (s : State) : State :=
  { finalize s with ih := digestView (finalize s).h, ihv := true }

/-- `OuterHash` (R144). -/
def outerHash (s : State) : State :=
  finalize (absorbInnerHash (absorbPad opadC (shaInit s)))

end Sys2Proof.Machine
end

