-- ==== Sys2Proof/Machine/Penc.lean ====
section
/-! DEFINITION. PENC, the lowercase fold and the symbol-substitution encoder: 42_passy_encoder.md (R160 to R166). -/

namespace Sys2Proof.Machine

/-- `Fold` (R160), with the parameter `FOLD_LATIN1` as an argument. -/
def foldByte (latin1 : Bool) (b : Byte) : Byte :=
  if 0x41 ≤ b.toNat ∧ b.toNat ≤ 0x5A then b + 0x20
  else if latin1 = true ∧ 0xC0 ≤ b.toNat ∧ b.toNat ≤ 0xDE ∧ b.toNat ≠ 0xD7 then b + 0x20
  else b

/-- One character of `Hex` (R162): the digit of bits 7:4 first, then that of bits 3:0. -/
def hexChar (byteAt : Nat → Byte) (j : Nat) : Byte :=
  if j % 2 = 0 then getAt hexRom ((byteAt (j / 2)).toNat / 16) else getAt hexRom ((byteAt (j / 2)).toNat % 16)

/-- The password of a state accumulator (R163). -/
def passwordOf (h : Vector Word 5) : Vector Byte 12 :=
  Vector.ofFn fun j => getAt alphaRom ((digestByte h j.val).toNat % 32)

/-- The fragment of a state accumulator (R164): the first 10 characters of `Hex`. -/
def fragmentOf (h : Vector Word 5) : Vector Byte 10 :=
  Vector.ofFn fun j => hexChar (digestByte h) j.val

/-- `EncodePassword` (R163). -/
def encodePassword (s : State) : State := { s with pw := passwordOf s.h }

/-- `EncodeFragment` (R164). -/
def encodeFragment (s : State) : State := { s with fr := fragmentOf s.h }

/-- `Encode` (R166). -/
def encodeResult (s : State) : State := encodeFragment (encodePassword s)

end Sys2Proof.Machine
end

