-- ==== Sys2Proof/Machine/Control.lean ====
section
/-! DEFINITION. The control commands NOP, SRESET, START.HASH, START.HMAC, START.DERIVE (43_cmd_control.md). -/

namespace Sys2Proof.Machine

/-- `NOP` (R181). -/
def execNop (s : State) : Host.Outcome State Fault Refusal := .next (respond 0x00 s)

/-- `SRESET` (R185). -/
def execSreset (s : State) : Host.Outcome State Fault Refusal := .next (respond 0x00 (resetRegs s))

/-- `START.HASH` (R182). -/
def execStartHash (s : State) : Host.Outcome State Fault Refusal :=
  .next (if s.op = .idle then respond 0x00 (shaInit (clearValid (setSeq .hash .msg s))) else raiseErr .state s)

/-- What `START.HMAC` and `START.DERIVE` share (R183, R184): the key phase of `o` opens with `K0` zeroed. -/
def startKeyed (o : Op) (s : State) : State :=
  if s.op = .idle then
    respond 0x00 (shaInit { clearValid (setSeq o .key s) with k0 := Vector.replicate 64 0x00 })
  else raiseErr .state s

/-- `START.HMAC` (R183). -/
def execStartHmac (s : State) : Host.Outcome State Fault Refusal := .next (startKeyed .hmac s)

/-- `START.DERIVE` (R184). -/
def execStartDerive (s : State) : Host.Outcome State Fault Refusal := .next (startKeyed .derive s)

end Sys2Proof.Machine
end

