-- ==== Sys2Proof/Machine/Stream.lean ====
section
/-! DEFINITION. The stream commands PUSH and END (44_cmd_stream.md). -/

namespace Sys2Proof.Machine

/-- `MAXLEN` = 2^LEN_BITS - 1 (R6). -/
def maxLen (p : Params) : Nat := 2 ^ p.lenBits - 1

/-- The byte a MSG phase absorbs for an operand `b` (R202): folded in DERIVE only. -/
def streamByte (p : Params) (o : Op) (b : Byte) : Byte :=
  if o = .derive then foldByte p.foldLatin1 b else b

/-- `PUSH` (R200 to R202) for given parameters (R6). -/
def pushWith (p : Params) (b : Byte) (s : State) : State :=
  if s.op = .idle then raiseErr .state s
  else if s.len.toNat = maxLen p then raiseErr .lenOvf s
  else if s.phase = .key then respond 0x00 (keyCapture b s)
  else respond 0x00 (absorb (streamByte p s.op b) s)

/-- `PUSH` on this hardware. -/
def execPush (b : Byte) (s : State) : Host.Outcome State Fault Refusal := .next (pushWith Config.hw b s)

/-- `END` in a KEY phase (R204). -/
def endKey (s : State) : State := { keyNormalizeAndInnerStart s with phase := .msg }

/-- `END` in (HASH, MSG) (R205). -/
def endHash (s : State) : State := setSeq .idle .key { finalize s with dv := true }

/-- The tag is computed and marked valid: `InnerFinish`, `OuterHash`, `DV` <- 1 (R206). -/
def finishTag (s : State) : State := { outerHash (innerFinish s) with dv := true }

/-- `Encode` and `PV` <- 1 (R206), in DERIVE. -/
def finishEncode (s : State) : State := { encodeResult s with pv := true }

/-- `END` in (HMAC, MSG) or (DERIVE, MSG) (R206). -/
def endMac (s : State) : State :=
  setSeq .idle .key (if s.op = .derive then finishEncode (finishTag s) else finishTag s)

/-- `END` (R203). -/
def execEndStream (s : State) : Host.Outcome State Fault Refusal :=
  .next
    (if s.op = .idle then raiseErr .state s
     else if s.phase = .key then respond 0x00 (endKey s)
     else if s.op = .hash then respond 0x00 (endHash s)
     else respond 0x00 (endMac s))

end Sys2Proof.Machine
end

