-- ==== Sys2Proof/Machine/Dispatch.lean ====
section
/-! DEFINITION. The dispatch: one arm per command, each one direct call of its meaning. -/

namespace Sys2Proof.Machine

def exec (i : Instr) (s : State) : Host.Outcome State Fault Refusal :=
  match i with
  | .nop => Sys2Proof.Machine.execNop s
  | .sreset => Sys2Proof.Machine.execSreset s
  | .startHash => Sys2Proof.Machine.execStartHash s
  | .startHmac => Sys2Proof.Machine.execStartHmac s
  | .startDerive => Sys2Proof.Machine.execStartDerive s
  | .push b => Sys2Proof.Machine.execPush b s
  | .endStream => Sys2Proof.Machine.execEndStream s
  | .rdStatus => Sys2Proof.Machine.execRdStatus s
  | .rdErr => Sys2Proof.Machine.execRdErr s
  | .rdDigest idx => Sys2Proof.Machine.execRdDigest idx s
  | .rdPw idx => Sys2Proof.Machine.execRdPw idx s
  | .rdFrag idx => Sys2Proof.Machine.execRdFrag idx s
  | .rdK0 idx => Sys2Proof.Machine.execRdK0 idx s
  | .rdIpad idx => Sys2Proof.Machine.execRdIpad idx s
  | .rdOpad idx => Sys2Proof.Machine.execRdOpad idx s
  | .rdIh idx => Sys2Proof.Machine.execRdIh idx s

end Sys2Proof.Machine
end

