-- ==== Sys2Proof/Machine/Engine.lean ====
section
/-! DEFINITION. Execution of one command word and of one host event (43_cmd_control.md R180, 70_reset_and_hazards.md R280). -/

namespace Sys2Proof.Machine

/-- The common execution frame (R180): a reserved encoding raises `ERR_ILLEGAL` (R85, R252), any other word runs its command. -/
def execWord (w : Cmd) (s : State) : Host.Outcome State Fault Refusal :=
  match decode w with
  | .ok i => exec i s
  | .error _ => .next (raiseErr .illegal s)

/-- What one host event does (R20, R280). -/
def runEvent (ev : HostEvent) (s : State) : Host.Outcome State Fault Refusal :=
  match ev with
  | .command w => execWord w s
  | .hardReset => .next (hardReset s)

end Sys2Proof.Machine
end

