-- ==== Sys2Proof/Machine/Step.lean ====
section
/-! DEFINITION. One step of the engine, and the host's way to place the next command. -/

namespace Sys2Proof.Machine

/-- One step: the engine takes the host's next event and executes it to completion (R20, R67); with none pending it does
nothing (R20, R287; DEDUCED, log entry 10, safe). -/
def step (s : State) : Host.Outcome State Fault Refusal :=
  match takeEvent s with
  | none => .next s
  | some (ev, r) => runEvent ev r

/-- The host gives the low `nbits` bits of `w` as its very next command word; log entries 1 and 14. -/
def State.withFetchWord (s : State) (nbits w : Nat) : State :=
  { s with port := .command (BitVec.ofNat 16 (w % 2 ^ nbits)) :: s.port }

end Sys2Proof.Machine
end

