-- ==== Sys2Proof/Machine/Reference.lean ====
section
/-! DEFINITION. The closed forms the statements compare the machine with: `Sha1` (40_sha1_engine.md R115), `Hmac`
(41_hmac_wrapper.md R140) and the outputs of `derive` (42_passy_encoder.md R165). `exec` does not use this file. -/

namespace Sys2Proof.Machine

/-- The first 64 bytes of a sequence, zeros where it is shorter. -/
def blockOf (l : List Byte) : Vector Byte 64 := Vector.ofFn fun i => l.getD i.val 0x00

/-- `CompressFn(S, P)` (R115): "the value `H` has after rule R111 run with `H` = S and `BLK` = P". -/
def compressFn (h : Vector Word 5) (blk : Vector Byte 64) : Vector Word 5 :=
  (compress { State.reset with h := h, blk := blk }).h

/-- The state accumulator after compressing the first `n` 64-byte blocks of a sequence, starting from `h` (R115). -/
def hashBlocks : Nat → Vector Word 5 → List Byte → Vector Word 5
  | 0, h, _ => h
  | n + 1, h, l => hashBlocks n (compressFn h (blockOf l)) (l.drop 64)

/-- `z` = (55 - |m|) mod 64 (R115), the number of 0x00 bytes of the padding. -/
def padCount (n : Nat) : Nat := (119 - n % 64) % 64

/-- `be64(8|m|)` (R115), most significant byte first. -/
def lengthField (n : Nat) : List Byte := (List.range 8).map (be64Byte (BitVec.ofNat 64 (8 * n)))

/-- `Pad(m)` (R115). -/
def padded (m : List Byte) : List Byte :=
  m ++ 0x80#8 :: (List.replicate (padCount m.length) 0x00#8 ++ lengthField m.length)

/-- `S_n` of R115: the state accumulator whose serialisation is `Sha1(m)`. -/
def sha1State (m : List Byte) : Vector Word 5 := hashBlocks ((m.length + 8) / 64 + 1) ivrom (padded m)

/-- `Sha1(m)` (R115): the big-endian serialisation of `S_n`. -/
def sha1 (m : List Byte) : List Byte := (digestView (sha1State m)).toList

/-- The normalised key `K0` (R140): hashed down if longer than 64 bytes, then zero-padded to 64. -/
def normalKey (key : List Byte) : Vector Byte 64 := blockOf (if 64 < key.length then sha1 key else key)

/-- `K0` XOR a pad byte repeated 64 times (R140). -/
def padBlock (pad : Byte) (k : Vector Byte 64) : List Byte := k.toList.map (· ^^^ pad)

/-- The state accumulator of the inner hash `Sha1(IPAD ‖ msg)` (R140) under a normalised key. -/
def innerState (k : Vector Byte 64) (msg : List Byte) : Vector Word 5 := sha1State (padBlock 0x36 k ++ msg)

/-- The state accumulator of `Sha1(OPAD ‖ IH)` (R140) under a normalised key. -/
def outerState (k : Vector Byte 64) (ih : Vector Byte 20) : Vector Word 5 := sha1State (padBlock 0x5C k ++ ih.toList)

/-- The state accumulator that holds the tag `Hmac(key, msg)` (R140), `k` being the normalised key. -/
def tagState (k : Vector Byte 64) (msg : List Byte) : Vector Word 5 :=
  outerState k (digestView (innerState k msg))

/-- `Hex(s)` (R162): high nibble first. -/
def hexString (s : List Byte) : List Byte :=
  s.flatMap fun b => [getAt hexRom (b.toNat / 16), getAt hexRom (b.toNat % 16)]

/-- `password` of a tag (R165 step 3): the first 12 bytes modulo 32 through the alphabet. -/
def passwordString (tag : List Byte) : List Byte := (tag.take 12).map fun b => getAt alphaRom (b.toNat % 32)

/-- `fragment` of a tag (R165 step 4): the first 10 characters of its hexadecimal string. -/
def fragmentString (tag : List Byte) : List Byte := (hexString tag).take 10

end Sys2Proof.Machine
end

