-- ==== Sys2Proof/Safety.lean ====
section
/-! DEFINITION. What counts as a safe run, in the terms the statements use: the invariants of 10_state.md R49, when a command is
refused (60_exceptions.md R257), what two states share for the host (00_scope.md R3), and frames. -/

namespace Sys2Proof.Machine

/-! ### Frames -/

/-- The result and diagnostic registers are the same (R31, R33 to R35). -/
def SameResults (s t : State) : Prop := t.k0 = s.k0 ∧ t.ih = s.ih ∧ t.pw = s.pw ∧ t.fr = s.fr

/-- The valid flags are the same (R43). -/
def SameFlags (s t : State) : Prop := t.dv = s.dv ∧ t.pv = s.pv ∧ t.kv = s.kv ∧ t.ihv = s.ihv

/-- The error record is the same (R44, R45). -/
def SameErrors (s t : State) : Prop := t.fault = s.fault ∧ t.errcode = s.errcode

/-- What the host will still give, and the draw counter, are the same. -/
def SameHost (s t : State) : Prop := t.port = s.port ∧ t.draws = s.draws

/-- The data path of SHA1CE is the same (R21 to R27). -/
def SameEngine (s t : State) : Prop :=
  t.h = s.h ∧ t.vars = s.vars ∧ t.w = s.w ∧ t.t = s.t ∧ t.blk = s.blk ∧ t.fill = s.fill ∧ t.len = s.len

/-- The control registers hold the values R50 states for reset; nothing is said of the data registers. -/
structure ControlReset (s : State) : Prop where
  op : s.op = .idle
  phase : s.phase = .key
  dv : s.dv = false
  pv : s.pv = false
  kv : s.kv = false
  ihv : s.ihv = false
  fault : s.fault = false
  errcode : s.errcode = 0x00#8
  len : s.len = 0
  fill : s.fill = 0
  t : s.t = 0

/-! ### When a command is refused -/

/-- An indexed read as (space, index) (R220). -/
def readOf : Instr → Option (Space × Byte)
  | .rdDigest i => some (.digest, i)
  | .rdPw i => some (.pw, i)
  | .rdFrag i => some (.frag, i)
  | .rdK0 i => some (.k0, i)
  | .rdIpad i => some (.ipad, i)
  | .rdOpad i => some (.opad, i)
  | .rdIh i => some (.ih, i)
  | .nop | .sreset | .startHash | .startHmac | .startDerive | .push _ | .endStream | .rdStatus | .rdErr => none

/-- A command of the group `RD.*` (45_cmd_read.md). -/
def isRead (i : Instr) : Bool := (readOf i).isSome || i == .rdStatus || i == .rdErr

/-- The one error a decoded command is refused with, if any, in the order of R257 (R253 to R256, R220). -/
def refusalOf (i : Instr) (s : State) : Option Err :=
  match i with
  | .startHash | .startHmac | .startDerive => if s.op = .idle then none else some .state
  | .push _ => if s.op = .idle then some .state else if s.len.toNat = 2 ^ 61 - 1 then some .lenOvf else none
  | .endStream => if s.op = .idle then some .state else none
  | .nop | .sreset | .rdStatus | .rdErr => none
  | .rdDigest _ | .rdPw _ | .rdFrag _ | .rdK0 _ | .rdIpad _ | .rdOpad _ | .rdIh _ =>
    match readOf i with
    | none => none
    | some (x, idx) =>
      if spaceSize x ≤ idx.toNat then some .index else if spaceValid x s = false then some .notValid else none

/-- The response code of a state's response word (R84), 0 where there is no response. -/
def rspCode (s : State) : Byte :=
  match s.rsp with
  | none => 0x00#8
  | some r => r.extractLsb' 8 8

/-- The complete transition table of R186: `SEQ` after a decoded command, `none` where the table says `ERR_STATE`. -/
def seqAfter (o : Op) (p : Phase) (i : Instr) : Option (Op × Phase) :=
  match i with
  | .startHash => if o = .idle then some (.hash, .msg) else none
  | .startHmac => if o = .idle then some (.hmac, .key) else none
  | .startDerive => if o = .idle then some (.derive, .key) else none
  | .push _ => if o = .idle then none else some (o, p)
  | .endStream =>
    match o, p with
    | .idle, _ => none
    | .hash, _ => some (.idle, .key)
    | .hmac, .key => some (.hmac, .msg)
    | .hmac, .msg => some (.idle, .key)
    | .derive, .key => some (.derive, .msg)
    | .derive, .msg => some (.idle, .key)
  | .sreset => some (.idle, .key)
  | .nop | .rdStatus | .rdErr => some (o, p)
  | .rdDigest _ | .rdPw _ | .rdFrag _ | .rdK0 _ | .rdIpad _ | .rdOpad _ | .rdIh _ => some (o, p)

/-- The six values `SEQ` takes (R40). -/
def SeqLegal (s : State) : Prop :=
  (s.op = .idle → s.phase = .key) ∧ (s.op = .hash → s.phase = .msg)

/-! ### Invariants (R49) -/

/-- The bytes `m` have been put into the current hash, and nothing else since `ShaInit`: `FILL`, `BLK` and `H` are those
R49 (b) describes. -/
structure Fed (s : State) (m : List Byte) : Prop where
  fill : s.fill.toNat = m.length % 64
  h : s.h = hashBlocks (m.length / 64) ivrom m
  blk : ∀ i, i < m.length % 64 → getAt s.blk i = m.getD (64 * (m.length / 64) + i) 0x00

/-- The bytes `m` are those absorbed since `ShaInit`: R49 (b) with `LEN` = |m| (R27). -/
structure Absorbed (s : State) (m : List Byte) : Prop where
  len : s.len.toNat = m.length
  fed : Fed s m

/-- `K0` holds the first 64 bytes of the key stream `k`, zeros beyond it (R49 (d)). -/
def KeyCaptured (s : State) (k : List Byte) : Prop := ∀ i, i < 64 → getAt s.k0 i = k.getD i 0x00

/-- The invariants of R42, R44, R45, R49 (a) to (f) and U15 that speak of control state alone. -/
structure ControlInv (s : State) : Prop where
  t_zero : s.t = 0
  fill_lt : s.fill.toNat < 64
  fill_len : s.op ≠ .idle → s.fill.toNat = s.len.toNat % 64
  seq : SeqLegal s
  key_tail : s.op ≠ .idle → s.phase = .key → ∀ i, s.len.toNat ≤ i → i < 64 → getAt s.k0 i = 0x00
  mac_msg : s.op ≠ .idle → s.op ≠ .hash → s.phase = .msg → s.kv = true ∧ 64 ≤ s.len.toNat
  dv_idle : s.dv = true → s.op = .idle
  pv_dv : s.pv = true → s.dv = true
  ihv_dv : s.ihv = true → s.dv = true
  ihv_kv : s.ihv = true → s.kv = true
  kv_mac : s.kv = true → s.op ≠ .hash ∧ (s.op ≠ .idle → s.phase = .msg)
  errcode_le : s.errcode.toNat ≤ 5
  fault_iff : s.fault = true ↔ s.errcode ≠ 0x00#8

/-- While an operation is open, the engine holds a hash of some bytes absorbed so far (R49 (b), (d), (e)); in a MSG phase
of HMAC or DERIVE those bytes begin with the ipad block of `K0`. -/
def StreamInv (s : State) : Prop :=
  match s.op, s.phase with
  | .idle, _ => True
  | .hash, _ => ∃ m, Absorbed s m
  | .hmac, .key => ∃ k, Absorbed s k ∧ KeyCaptured s k
  | .derive, .key => ∃ k, Absorbed s k ∧ KeyCaptured s k
  | .hmac, .msg => ∃ m, Absorbed s (padBlock 0x36 s.k0 ++ m)
  | .derive, .msg => ∃ m, Absorbed s (padBlock 0x36 s.k0 ++ m)

/-- What is readable is a finished result (R43, R30 to R35). -/
structure ResultInv (s : State) : Prop where
  digest : s.dv = true → ∃ m, s.h = sha1State m
  ih : s.ihv = true → ∃ m, s.ih = digestView (innerState s.k0 m)
  tag : s.ihv = true → s.h = outerState s.k0 s.ih
  pv_ihv : s.pv = true → s.ihv = true
  pw : s.pv = true → s.pw.toList = passwordString (digestView s.h).toList
  fr : s.pv = true → s.fr.toList = fragmentString (digestView s.h).toList

/-- The whole invariant. -/
structure Inv (s : State) : Prop where
  control : ControlInv s
  stream : StreamInv s
  result : ResultInv s

/-! ### What the host can tell apart (R3) -/

/-- Two states that no rule lets a later response tell apart: the control registers, the response and the port agree;
the data registers agree where an open operation or a set valid flag makes their content matter. -/
structure SameForHost (s t : State) : Prop where
  op : s.op = t.op
  phase : s.phase = t.phase
  dv : s.dv = t.dv
  pv : s.pv = t.pv
  kv : s.kv = t.kv
  ihv : s.ihv = t.ihv
  fault : s.fault = t.fault
  errcode : s.errcode = t.errcode
  rsp : s.rsp = t.rsp
  port : s.port = t.port
  len : s.op ≠ .idle → s.len = t.len
  fill : s.op ≠ .idle → s.fill = t.fill
  h : s.op ≠ .idle ∨ s.dv = true → s.h = t.h
  blk : s.op ≠ .idle → ∀ i, i < s.fill.toNat → getAt s.blk i = getAt t.blk i
  k0 : (s.op ≠ .idle ∧ s.op ≠ .hash) ∨ s.kv = true → s.k0 = t.k0
  ih : s.ihv = true → s.ih = t.ih
  pw : s.pv = true → s.pw = t.pw
  fr : s.pv = true → s.fr = t.fr

end Sys2Proof.Machine
end

