-- ==== Sys2Proof/Certificates/Slice0/Obligations.lean ====
section
/-! DEFINITION. The statements for the provers. Each docstring names the rule of spec/ it formalises. -/

open Sys2Proof Sys2Proof.Machine

/-! ### Encoding -/

/-- Words written out from R82's table decode to their commands; the class `none` word 0x2101 does not decode. -/
def Obligations.SampleWordsDecode : Prop :=
  decode 0x0000#16 = .ok .nop ∧ decode 0x0100#16 = .ok .sreset ∧ decode 0x1200#16 = .ok .startDerive ∧
  decode 0x20A5#16 = .ok (.push 0xA5#8) ∧ decode 0x2100#16 = .ok .endStream ∧
  decode 0x2101#16 = .error (.operandNotZero 0x21#8 0x01#8) ∧ decode 0x3100#16 = .ok .rdErr ∧
  decode 0x4013#16 = .ok (.rdDigest 0x13#8) ∧ decode 0x4AFF#16 = .ok (.rdOpad 0xFF#8) ∧
  decode 0x4C00#16 = .error (.unknownOpcode 0x4C#8)

/-- Decode and encode agree in both directions, for all commands with every operand byte (30_encoding.md sections 1, 2). -/
def Obligations.DecodeAndEncodeAgree : Prop :=
  (∀ i : Instr, decode (encode i) = .ok i) ∧ (∀ (w : Cmd) (i : Instr), decode w = .ok i → encode i = w)

/-- R82: a word is the command of a row exactly when (w & mask) = match, for the sixteen rows. -/
def Obligations.DecodeFollowsOpcodeMap : Prop :=
  (∀ (w : Cmd) (row : String × Cmd × Cmd), row ∈ opcodeRows →
    ((w &&& row.2.2 = row.2.1) ↔ ∃ i, decode w = .ok i ∧ mnemonicOf i = row.1)) ∧
  opcodeRows.length = 16

/-- R252 (with R85's words for a reserved encoding, `reservedWord`): from every state, a step whose command word is a
reserved encoding answers 0x0100 and does nothing else but set the error record; every other word decodes. -/
def Obligations.ReservedWordsAreIllegal : Prop :=
  (∀ (s : State) (w : Cmd) (rest : List HostEvent), s.port = .command w :: rest → reservedWord w = true →
    step s = .next { s with port := rest
                            fault := true
                            errcode := if s.errcode = 0x00#8 then 0x01#8 else s.errcode
                            rsp := some 0x0100#16 }) ∧
  (∀ w : Cmd, reservedWord w = false → ∃ i, decode w = .ok i)

/-! ### The step -/

/-- A step runs the command the host's next word decodes to (R180, R67). That the host's words
stand in `port` is the model's choice (log entry 1). -/
def Obligations.StepRunsDecodedCommand : Prop :=
  ∀ (s : State) (w : Cmd) (rest : List HostEvent) (i : Instr),
    s.port = .command w :: rest → decode w = .ok i → step s = exec i { s with port := rest }

/-- With no event pending a step changes nothing (the engine "does nothing between commands", R20; log entry 10). -/
def Obligations.StepWithNoEventIsIdle : Prop :=
  ∀ s : State, s.port = [] → step s = .next s

/-- R280: a hard reset gives every control register its reset value, from any state; the data registers are left open.
That it leaves no response word is the model's choice (log entry 2). -/
def Obligations.HardResetResetsControl : Prop :=
  ∀ (s : State) (rest : List HostEvent), s.port = .hardReset :: rest →
    ∃ t, step s = .next t ∧ ControlReset t ∧ t.port = rest ∧ t.rsp = none

/-! ### Reset -/

/-- R50: the values reset and `SRESET` leave in the control registers (nothing is said of the registers R50 leaves
unspecified). -/
def Obligations.ResetLeavesControlValues : Prop :=
  ControlReset State.reset ∧ statusView State.reset = 0x00#8 ∧
  ∀ s : State, ControlReset (hardReset s) ∧ ∃ t, exec .sreset s = .next t ∧ ControlReset t

/-- R281, which the spec marks as its own inference: what the host observes from a state whose control registers are those of reset. -/
def Obligations.ResetIsObservedAsIdle : Prop :=
  ∀ s : State, ControlReset s →
    exec .rdStatus s = .next { s with rsp := some 0x0000#16 } ∧
    exec .rdErr s = .next { s with rsp := some 0x0000#16 } ∧
    (∀ i x idx, readOf i = some (x, idx) → idx.toNat < spaceSize x →
      ∃ t, exec i s = .next t ∧ t.rsp = some 0x0400#16 ∧ t.fault = true) ∧
    (∀ i, (i = .endStream ∨ ∃ b, i = .push b) →
      ∃ t, exec i s = .next t ∧ t.rsp = some 0x0200#16 ∧ t.fault = true) ∧
    (∀ i, (i = .startHash ∨ i = .startHmac ∨ i = .startDerive) →
      ∃ t, exec i s = .next t ∧ t.rsp = some 0x0000#16 ∧ t.fault = false ∧ t.op ≠ .idle)

/-! ### Errors -/

/-- R250, R251: the error response. -/
def Obligations.ErrorResponseRecordsFirstCode : Prop :=
  ∀ (s : State) (e : Err) (c : Byte),
    (e, c) ∈ [(Err.illegal, 0x01#8), (Err.state, 0x02#8), (Err.index, 0x03#8), (Err.notValid, 0x04#8), (Err.lenOvf, 0x05#8)] →
    raiseErr e s = { s with fault := true
                            errcode := if s.errcode = 0x00#8 then c else s.errcode
                            rsp := some (c ++ 0x00#8) }

/-- R257 with R253 to R256: every decoded command is refused exactly when, and with exactly the code, that the rules say;
a refusal is the error response and nothing else; every other command answers with code 0x00. -/
def Obligations.RefusedExactlyAsRuled : Prop :=
  ∀ (i : Instr) (s : State),
    (∀ e, refusalOf i s = some e → exec i s = .next (raiseErr e s)) ∧
    (refusalOf i s = none → ∃ t, exec i s = .next t ∧ rspCode t = 0x00#8 ∧ t.rsp.isSome = true)

/-- R253: a command out of sequence. -/
def Obligations.OutOfSequenceIsRefused : Prop :=
  ∀ s : State,
    (s.op ≠ .idle → ∀ i, (i = .startHash ∨ i = .startHmac ∨ i = .startDerive) →
      exec i s = .next (raiseErr .state s)) ∧
    (s.op = .idle → ∀ i, (i = .endStream ∨ ∃ b, i = .push b) → exec i s = .next (raiseErr .state s))

/-- R256: a `PUSH` at `LEN` = MAXLEN = 2^61 - 1 is refused and absorbs nothing. -/
def Obligations.PushAtFullCounterIsRefused : Prop :=
  ∀ (s : State) (b : Byte), s.op ≠ .idle → s.len.toNat = 2 ^ 61 - 1 →
    exec (.push b) s = .next { s with fault := true
                                      errcode := if s.errcode = 0x00#8 then 0x05#8 else s.errcode
                                      rsp := some 0x0500#16 }

/-- The same for every legal `LEN_BITS` (R6, D7), whatever `FOLD_LATIN1` is. -/
def Obligations.PushAtFullCounterForAllParams : Prop :=
  ∀ (p : Params) (s : State) (b : Byte), p.Legal → s.op ≠ .idle →
    (s.len.toNat = 2 ^ p.lenBits - 1 → pushWith p b s = raiseErr .lenOvf s) ∧
    (s.len.toNat < 2 ^ p.lenBits - 1 →
      (pushWith p b s).len.toNat = s.len.toNat + 1 ∧ (pushWith p b s).rsp = some 0x0000#16)

/-- R44, R45, R260: no command but `SRESET` clears `FAULT` or replaces a recorded code. -/
def Obligations.ErrorRecordIsSticky : Prop :=
  ∀ (i : Instr) (s t : State), exec i s = .next t → i ≠ .sreset →
    (s.fault = true → t.fault = true) ∧ (s.errcode ≠ 0x00#8 → t.errcode = s.errcode)

/-- R44, R260: `FAULT` and `ERRCODE` never influence acceptance or results; only `RD.STATUS` and `RD.ERR` show them. -/
def Obligations.ErrorRecordNeverInfluencesResults : Prop :=
  ∀ (i : Instr) (s : State) (f : Bool) (c : Byte),
    ∃ t u, exec i s = .next t ∧ exec i { s with fault := f, errcode := c } = .next u ∧
      u = { t with fault := u.fault, errcode := u.errcode, rsp := u.rsp } ∧
      (i ≠ .rdStatus → i ≠ .rdErr → u.rsp = t.rsp)

/-- R84: a response word is produced by every command; an accepted command that is no read answers 0x0000, an accepted
read answers code 0x00, a refusal has a code of 1 to 5 and data 0x00. -/
def Obligations.ResponseWordShape : Prop :=
  ∀ (i : Instr) (s : State), ∃ t r, exec i s = .next t ∧ t.rsp = some r ∧
    ((r.extractLsb' 8 8 = 0x00#8 ∧ (isRead i = false → r = 0x0000#16)) ∨
     (r.extractLsb' 0 8 = 0x00#8 ∧ 1 ≤ (r.extractLsb' 8 8).toNat ∧ (r.extractLsb' 8 8).toNat ≤ 5))

/-! ### Control commands -/

/-- R181. -/
def Obligations.NopOnlyAnswersOk : Prop :=
  decode 0x0000#16 = .ok .nop ∧ (∀ d : Byte, d ≠ 0x00#8 → decode (0x00#8 ++ d) = .error (.operandNotZero 0x00#8 d)) ∧
  ∀ s : State, exec .nop s = .next { s with rsp := some 0x0000#16 }

/-- R185: `SRESET` is accepted in every state; what it leaves in the data registers is open. -/
def Obligations.SresetResetsControl : Prop :=
  decode 0x0100#16 = .ok .sreset ∧
  ∀ s : State, ∃ t, exec .sreset s = .next t ∧ ControlReset t ∧ t.rsp = some 0x0000#16 ∧ t.port = s.port

/-- R182, with R101's `ShaInit`. -/
def Obligations.StartHashOpensHash : Prop :=
  decode 0x1000#16 = .ok .startHash ∧
  ∀ s : State,
    (s.op ≠ .idle → exec .startHash s = .next (raiseErr .state s)) ∧
    (s.op = .idle → exec .startHash s = .next
      { s with op := .hash, phase := .msg, dv := false, pv := false, kv := false, ihv := false
               h := ivrom, len := 0, fill := 0
               rsp := some 0x0000#16 })

/-- R183. -/
def Obligations.StartHmacOpensKeyPhase : Prop :=
  decode 0x1100#16 = .ok .startHmac ∧
  ∀ s : State,
    (s.op ≠ .idle → exec .startHmac s = .next (raiseErr .state s)) ∧
    (s.op = .idle → exec .startHmac s = .next
      { s with op := .hmac, phase := .key, dv := false, pv := false, kv := false, ihv := false
               k0 := Vector.replicate 64 0x00#8
               h := ivrom, len := 0, fill := 0
               rsp := some 0x0000#16 })

/-- R184. -/
def Obligations.StartDeriveOpensKeyPhase : Prop :=
  decode 0x1200#16 = .ok .startDerive ∧
  ∀ s : State,
    (s.op ≠ .idle → exec .startDerive s = .next (raiseErr .state s)) ∧
    (s.op = .idle → exec .startDerive s = .next
      { s with op := .derive, phase := .key, dv := false, pv := false, kv := false, ihv := false
               k0 := Vector.replicate 64 0x00#8
               h := ivrom, len := 0, fill := 0
               rsp := some 0x0000#16 })

/-- R186: the complete transition table, over the six legal values of `SEQ` (R40). -/
def Obligations.SeqFollowsTransitionTable : Prop :=
  ∀ (i : Instr) (s : State), SeqLegal s → ∃ t, exec i s = .next t ∧
    (∀ o p, seqAfter s.op s.phase i = some (o, p) →
      (rspCode t = 0x00#8 → t.op = o ∧ t.phase = p) ∧ (rspCode t ≠ 0x00#8 → t.op = s.op ∧ t.phase = s.phase)) ∧
    (seqAfter s.op s.phase i = none → t = raiseErr .state s)

/-- R43: which commands write the valid flags, and what; nothing else writes them. -/
def Obligations.ValidFlagsWrittenAsRuled : Prop :=
  ∀ (i : Instr) (s t : State), exec i s = .next t →
    (refusalOf i s ≠ none → SameFlags s t) ∧
    (refusalOf i s = none →
      (i = .sreset ∨ i = .startHash ∨ i = .startHmac ∨ i = .startDerive →
        t.dv = false ∧ t.pv = false ∧ t.kv = false ∧ t.ihv = false) ∧
      (i = .nop ∨ (∃ b, i = .push b) ∨ isRead i = true → SameFlags s t) ∧
      (i = .endStream → s.phase = .key → t.kv = true ∧ t.dv = s.dv ∧ t.pv = s.pv ∧ t.ihv = s.ihv) ∧
      (i = .endStream → s.phase = .msg → s.op = .hash → t.dv = true ∧ t.pv = s.pv ∧ t.kv = s.kv ∧ t.ihv = s.ihv) ∧
      (i = .endStream → s.phase = .msg → s.op = .hmac → t.dv = true ∧ t.ihv = true ∧ t.pv = s.pv ∧ t.kv = s.kv) ∧
      (i = .endStream → s.phase = .msg → s.op = .derive → t.dv = true ∧ t.ihv = true ∧ t.pv = true ∧ t.kv = s.kv))

/-! ### PUSH -/

/-- R201 (with R141, R103, R102): a key byte is stored in `K0` while `LEN` < 64 and is absorbed unfolded; a byte that does not
fill the block changes nothing else. -/
def Obligations.PushIntoKeyPhase : Prop :=
  ∀ (s : State) (b : Byte), s.op ≠ .idle → s.phase = .key → s.len.toNat < 2 ^ 61 - 1 →
    (s.fill.toNat < 63 → exec (.push b) s = .next
      { s with k0 := if s.len.toNat < 64 then setAt s.k0 s.len.toNat b else s.k0
               blk := setAt s.blk s.fill.toNat b, fill := s.fill + 1, len := s.len + 1, rsp := some 0x0000#16 }) ∧
    (s.fill.toNat = 63 → ∃ w v, exec (.push b) s = .next
      { s with k0 := if s.len.toNat < 64 then setAt s.k0 s.len.toNat b else s.k0
               blk := setAt s.blk 63 b, fill := 0, len := s.len + 1, rsp := some 0x0000#16
               h := compressFn s.h (setAt s.blk 63 b), w := w, vars := v, t := 0 })

/-- R202 (with R160, R103, R102): a message byte is absorbed, in DERIVE with the ASCII capitals folded (`FOLD_LATIN1` = 0, log
entry 8). -/
def Obligations.PushIntoMessagePhase : Prop :=
  ∀ (s : State) (b c : Byte), s.op ≠ .idle → s.phase = .msg → s.len.toNat < 2 ^ 61 - 1 →
    c = (if s.op = .derive ∧ 0x41 ≤ b.toNat ∧ b.toNat ≤ 0x5A then b + 0x20#8 else b) →
    (s.fill.toNat < 63 → exec (.push b) s = .next
      { s with blk := setAt s.blk s.fill.toNat c, fill := s.fill + 1, len := s.len + 1, rsp := some 0x0000#16 }) ∧
    (s.fill.toNat = 63 → ∃ w v, exec (.push b) s = .next
      { s with blk := setAt s.blk 63 c, fill := 0, len := s.len + 1, rsp := some 0x0000#16
               h := compressFn s.h (setAt s.blk 63 c), w := w, vars := v, t := 0 })

/-- R49 (b), (d) for `PUSH`: the pushed byte is appended to the bytes absorbed so far, and in a KEY phase to the key. -/
def Obligations.PushAppendsToTheStream : Prop :=
  ∀ (s t : State) (b : Byte) (m : List Byte), s.op ≠ .idle → s.len.toNat < 2 ^ 61 - 1 → Absorbed s m →
    exec (.push b) s = .next t →
    (s.phase = .key → KeyCaptured s m → Absorbed t (m ++ [b]) ∧ KeyCaptured t (m ++ [b])) ∧
    (s.phase = .msg → s.op ≠ .derive → Absorbed t (m ++ [b])) ∧
    (s.phase = .msg → s.op = .derive → Absorbed t (m ++ [foldByte false b]))

/-! ### END -/

/-- R204 (with R142 and R140's normalised key): the key stream `k` ends, the ipad block is compressed. -/
def Obligations.EndOfKeyStartsInnerHash : Prop :=
  ∀ (s : State) (k : List Byte), s.op ≠ .idle → s.phase = .key → Absorbed s k → KeyCaptured s k →
    ∃ w v b, exec .endStream s = .next
      { s with k0 := normalKey k, kv := true, phase := .msg, len := 64, fill := 0
               h := compressFn ivrom (blockOf (padBlock 0x36 (normalKey k)))
               w := w, vars := v, blk := b, t := 0, rsp := some 0x0000#16 }

/-- R205 with R100 and the closed form of R115: `END` of `HASH` leaves the SHA-1 digest of the stream. -/
def Obligations.EndOfHashGivesSha1 : Prop :=
  ∀ (s : State) (m : List Byte), s.op = .hash → s.phase = .msg → Absorbed s m →
    ∃ w v b, exec .endStream s = .next
      { s with h := sha1State m, dv := true, op := .idle, phase := .key, fill := 0
               w := w, vars := v, blk := b, t := 0, rsp := some 0x0000#16 }

/-- R206 with R143, R144: the last `END` of `HMAC` leaves the inner hash in `IH` and the tag in `H`. -/
def Obligations.EndOfHmacGivesTag : Prop :=
  ∀ (s : State) (m : List Byte), s.op = .hmac → s.phase = .msg → Absorbed s (padBlock 0x36 s.k0 ++ m) →
    ∃ w v b, exec .endStream s = .next
      { s with ih := digestView (innerState s.k0 m), h := tagState s.k0 m, ihv := true, dv := true
               op := .idle, phase := .key, len := 84, fill := 0
               w := w, vars := v, blk := b, t := 0, rsp := some 0x0000#16 }

/-- R206 with R163 to R166: the last `END` of `DERIVE` also leaves password and fragment. -/
def Obligations.EndOfDeriveGivesPassword : Prop :=
  ∀ (s : State) (m : List Byte), s.op = .derive → s.phase = .msg → Absorbed s (padBlock 0x36 s.k0 ++ m) →
    ∃ w v b pw fr, exec .endStream s = .next
      { s with ih := digestView (innerState s.k0 m), h := tagState s.k0 m, ihv := true, dv := true
               pv := true, pw := pw, fr := fr, op := .idle, phase := .key, len := 84, fill := 0
               w := w, vars := v, blk := b, t := 0, rsp := some 0x0000#16 } ∧
      pw.toList = passwordString (digestView (tagState s.k0 m)).toList ∧
      fr.toList = fragmentString (digestView (tagState s.k0 m)).toList

/-- The frame of `END` in every state, reached or not (R204 to R206): what each branch leaves unchanged. -/
def Obligations.EndLeavesTheRest : Prop :=
  ∀ s t : State, s.op ≠ .idle → exec .endStream s = .next t →
    SameErrors s t ∧ SameHost s t ∧
    (s.phase = .key → t.ih = s.ih ∧ t.pw = s.pw ∧ t.fr = s.fr ∧ (s.len.toNat ≤ 64 → t.k0 = s.k0)) ∧
    (s.phase = .msg → t.k0 = s.k0) ∧
    (s.phase = .msg → s.op = .hash → t.ih = s.ih ∧ t.pw = s.pw ∧ t.fr = s.fr ∧ t.len = s.len) ∧
    (s.phase = .msg → s.op = .hmac → t.pw = s.pw ∧ t.fr = s.fr)

/-! ### Reads -/

/-- R221, R46: `STATUS` bit by bit, as a number. -/
def Obligations.ReadStatusAnswersStatus : Prop :=
  decode 0x3000#16 = .ok .rdStatus ∧
  ∀ s : State, ∃ d : Byte, exec .rdStatus s = .next { s with rsp := some (0x00#8 ++ d) } ∧
    d.toNat = (match s.op with | .idle => 0 | .hash => 1 | .hmac => 2 | .derive => 3) +
      4 * (match s.phase with | .key => 0 | .msg => 1) + 8 * s.dv.toNat + 16 * s.pv.toNat + 32 * s.kv.toNat +
      64 * s.ihv.toNat + 128 * s.fault.toNat

/-- R229. -/
def Obligations.ReadErrAnswersErrcode : Prop :=
  decode 0x3100#16 = .ok .rdErr ∧
  ∀ s : State, exec .rdErr s = .next { s with rsp := some (0x00#8 ++ s.errcode) }

/-- R222, R220, R30: byte `i` of the digest is `H[i div 4]` bits 31-8k : 24-8k, k = i mod 4. -/
def Obligations.ReadDigestByte : Prop :=
  ∀ (s : State) (i : Byte),
    decode (0x40#8 ++ i) = .ok (.rdDigest i) ∧
    (20 ≤ i.toNat → exec (.rdDigest i) s = .next (raiseErr .index s)) ∧
    (i.toNat < 20 → s.dv = false → exec (.rdDigest i) s = .next (raiseErr .notValid s)) ∧
    (i.toNat < 20 → s.dv = true → exec (.rdDigest i) s = .next
      { s with rsp := some (0x00#8 ++ ((getAt s.h (i.toNat / 4)) >>> (24 - 8 * (i.toNat % 4))).setWidth 8) })

/-- R223, R220. -/
def Obligations.ReadPasswordByte : Prop :=
  ∀ (s : State) (i : Byte),
    decode (0x41#8 ++ i) = .ok (.rdPw i) ∧
    (12 ≤ i.toNat → exec (.rdPw i) s = .next (raiseErr .index s)) ∧
    (i.toNat < 12 → s.pv = false → exec (.rdPw i) s = .next (raiseErr .notValid s)) ∧
    (i.toNat < 12 → s.pv = true → exec (.rdPw i) s = .next { s with rsp := some (0x00#8 ++ getAt s.pw i.toNat) })

/-- R224, R220. -/
def Obligations.ReadFragmentByte : Prop :=
  ∀ (s : State) (i : Byte),
    decode (0x42#8 ++ i) = .ok (.rdFrag i) ∧
    (10 ≤ i.toNat → exec (.rdFrag i) s = .next (raiseErr .index s)) ∧
    (i.toNat < 10 → s.pv = false → exec (.rdFrag i) s = .next (raiseErr .notValid s)) ∧
    (i.toNat < 10 → s.pv = true → exec (.rdFrag i) s = .next { s with rsp := some (0x00#8 ++ getAt s.fr i.toNat) })

/-- R225, R220. -/
def Obligations.ReadKeyByte : Prop :=
  ∀ (s : State) (i : Byte),
    decode (0x48#8 ++ i) = .ok (.rdK0 i) ∧
    (64 ≤ i.toNat → exec (.rdK0 i) s = .next (raiseErr .index s)) ∧
    (i.toNat < 64 → s.kv = false → exec (.rdK0 i) s = .next (raiseErr .notValid s)) ∧
    (i.toNat < 64 → s.kv = true → exec (.rdK0 i) s = .next { s with rsp := some (0x00#8 ++ getAt s.k0 i.toNat) })

/-- R226, R227, R32: the pads are views of `K0`. -/
def Obligations.ReadPadBytes : Prop :=
  ∀ (s : State) (i : Byte),
    decode (0x49#8 ++ i) = .ok (.rdIpad i) ∧ decode (0x4A#8 ++ i) = .ok (.rdOpad i) ∧
    (64 ≤ i.toNat → exec (.rdIpad i) s = .next (raiseErr .index s) ∧ exec (.rdOpad i) s = .next (raiseErr .index s)) ∧
    (i.toNat < 64 → s.kv = false →
      exec (.rdIpad i) s = .next (raiseErr .notValid s) ∧ exec (.rdOpad i) s = .next (raiseErr .notValid s)) ∧
    (i.toNat < 64 → s.kv = true →
      exec (.rdIpad i) s = .next { s with rsp := some (0x00#8 ++ (getAt s.k0 i.toNat ^^^ 0x36#8)) } ∧
      exec (.rdOpad i) s = .next { s with rsp := some (0x00#8 ++ (getAt s.k0 i.toNat ^^^ 0x5C#8)) })

/-- R228, R220. -/
def Obligations.ReadInnerHashByte : Prop :=
  ∀ (s : State) (i : Byte),
    decode (0x4B#8 ++ i) = .ok (.rdIh i) ∧
    (20 ≤ i.toNat → exec (.rdIh i) s = .next (raiseErr .index s)) ∧
    (i.toNat < 20 → s.ihv = false → exec (.rdIh i) s = .next (raiseErr .notValid s)) ∧
    (i.toNat < 20 → s.ihv = true → exec (.rdIh i) s = .next { s with rsp := some (0x00#8 ++ getAt s.ih i.toNat) })

/-- R230: no read has a side effect. -/
def Obligations.ReadsHaveNoSideEffect : Prop :=
  ∀ (i : Instr) (s : State), isRead i = true → ∃ t, exec i s = .next t ∧
    (rspCode t = 0x00#8 → t = { s with rsp := t.rsp }) ∧
    (rspCode t ≠ 0x00#8 → t = { s with fault := t.fault, errcode := t.errcode, rsp := t.rsp })

/-! ### SHA1CE -/

/-- R101 with the values of R28, which the spec takes from general knowledge (G1; PRESUMED, log entry 9). -/
def Obligations.ShaInitLoadsConstants : Prop :=
  ∀ s : State, shaInit s =
    { s with h := #v[0x67452301, 0xEFCDAB89, 0x98BADCFE, 0x10325476, 0xC3D2E1F0], len := 0, fill := 0 }

/-- R105, R106: the schedule that a `Compress` leaves in `W`. -/
def Obligations.ScheduleFollowsRecurrence : Prop :=
  ∀ s : State,
    (∀ t, t < 16 → getAt (compress s).w t =
      getAt s.blk (4 * t) ++ getAt s.blk (4 * t + 1) ++ getAt s.blk (4 * t + 2) ++ getAt s.blk (4 * t + 3)) ∧
    (∀ t, 16 ≤ t → t < 80 → getAt (compress s).w t =
      (getAt (compress s).w (t - 3) ^^^ getAt (compress s).w (t - 8) ^^^ getAt (compress s).w (t - 14) ^^^
        getAt (compress s).w (t - 16)).rotateLeft 1)

/-- R107, R108, R109, R110: there is a trace of the working variables from `H` through the 80 rounds, and the last ones are
added into `H` at the end of the block (90_conflicts.md C1). -/
def Obligations.RoundsAndAddInAsRuled : Prop :=
  ∀ s : State, ∃ v : Nat → Vars,
    v 0 = { a := getAt s.h 0, b := getAt s.h 1, c := getAt s.h 2, d := getAt s.h 3, e := getAt s.h 4 } ∧
    (∀ t, t < 80 → ∃ f k : Word,
      (t < 20 → f = ((v t).b &&& (v t).c) ||| (~~~(v t).b &&& (v t).d) ∧ k = 0x5A827999#32) ∧
      (20 ≤ t → t < 40 → f = (v t).b ^^^ (v t).c ^^^ (v t).d ∧ k = 0x6ED9EBA1#32) ∧
      (40 ≤ t → t < 60 →
        f = ((v t).b &&& (v t).c) ||| ((v t).b &&& (v t).d) ||| ((v t).c &&& (v t).d) ∧ k = 0x8F1BBCDC#32) ∧
      (60 ≤ t → f = (v t).b ^^^ (v t).c ^^^ (v t).d ∧ k = 0xCA62C1D6#32) ∧
      v (t + 1) = { a := (v t).a.rotateLeft 5 + f + (v t).e + k + getAt (compress s).w t
                    b := (v t).a, c := (v t).b.rotateLeft 30, d := (v t).c, e := (v t).d }) ∧
    (compress s).vars = v 80 ∧
    (compress s).h = #v[getAt s.h 0 + (v 80).a, getAt s.h 1 + (v 80).b, getAt s.h 2 + (v 80).c,
                        getAt s.h 3 + (v 80).d, getAt s.h 4 + (v 80).e]

/-- R111: `Compress` is a function of (`H`, `BLK`) only, and writes only `W`, `A..E`, `T`, `H`. -/
def Obligations.CompressDependsOnHashAndBlock : Prop :=
  ∀ s r : State, s.h = r.h → s.blk = r.blk →
    (compress s).h = (compress r).h ∧ (compress s).w = (compress r).w ∧ (compress s).vars = (compress r).vars ∧
    compress s = { s with h := (compress s).h, w := (compress s).w, vars := (compress s).vars, t := 0 }

/-- R102: `Put` for every `FILL` from 0 to 63. -/
def Obligations.PutStoresAndCompresses : Prop :=
  ∀ (s : State) (b : Byte), s.fill.toNat ≤ 63 →
    (s.fill.toNat < 63 → put b s = { s with blk := setAt s.blk s.fill.toNat b, fill := s.fill + 1 }) ∧
    (s.fill.toNat = 63 → put b s = { compress { s with blk := setAt s.blk 63 b, fill := 64 } with fill := 0 }) ∧
    (put b s).len = s.len

/-- R104, with R115's closed form: after the bytes `m`, `Finalize` leaves `Sha1(m)` in `H`, `FILL` = 0 and `LEN` unchanged. -/
def Obligations.FinalizePadsAndHashes : Prop :=
  ∀ (s : State) (m : List Byte), Absorbed s m →
    (finalize s).h = sha1State m ∧ (finalize s).fill = 0 ∧ (finalize s).len = s.len

/-- R115, which the spec marks as its own inference: the byte-by-byte form of R100 equals the closed form, from every state and for every message that the counter
can hold. -/
def Obligations.StreamedSha1EqualsClosedForm : Prop :=
  ∀ (s : State) (m : List Byte), m.length ≤ 2 ^ 61 - 1 →
    (digestView (finalize (m.foldl (fun r b => absorb b r) (shaInit s))).h).toList = sha1 m

/-- R144: the outer hash absorbs 84 bytes whatever the message was and leaves `Sha1(OPAD ‖ IH)` in `H`. -/
def Obligations.OuterHashIsTwoBlocks : Prop :=
  ∀ s : State, (outerHash s).h = outerState s.k0 s.ih ∧ (outerHash s).len = 84 ∧ (outerHash s).fill = 0 ∧
    SameResults s (outerHash s) ∧ SameFlags s (outerHash s)

/-! ### PENC -/

/-- R160: `Fold` for both values of `FOLD_LATIN1`, and its idempotence; the Latin-1 range is the
spec's general knowledge (G2). -/
def Obligations.FoldLowersAsRuled : Prop :=
  ∀ (l : Bool) (b : Byte),
    (foldByte l b).toNat =
      (if 0x41 ≤ b.toNat ∧ b.toNat ≤ 0x5A then b.toNat + 0x20
       else if l = true ∧ 0xC0 ≤ b.toNat ∧ b.toNat ≤ 0xDE ∧ b.toNat ≠ 0xD7 then b.toNat + 0x20
       else b.toNat) ∧
    foldByte l (foldByte l b) = foldByte l b

/-- R163, R164, R36, R37: `Encode` writes the password and the fragment of the digest in `H`, and nothing else. -/
def Obligations.EncodeWritesPasswordAndFragment : Prop :=
  ∀ s : State, ∃ pw fr, encodeResult s = { s with pw := pw, fr := fr } ∧
    (∀ j, j < 12 → some (getAt pw j).toNat =
      ("ABCDEFGHabcdefgh23456789#$%*+=@?".toList.map Char.toNat)[(digestByte s.h j).toNat % 32]?) ∧
    (∀ j, j < 5 →
      some (getAt fr (2 * j)).toNat = ("0123456789abcdef".toList.map Char.toNat)[(digestByte s.h j).toNat / 16]? ∧
      some (getAt fr (2 * j + 1)).toNat = ("0123456789abcdef".toList.map Char.toNat)[(digestByte s.h j).toNat % 16]?)

/-! ### Invariants of every step -/

/-- R49 (a), (c), (d), (e), (f) with R40, R42, R44, R45: the control invariant is kept by every step from every state that
meets it. -/
def Obligations.ControlInvIsKeptByEveryStep : Prop :=
  ∀ s t : State, ControlInv s → step s = .next t → ControlInv t

/-- The state after reset meets the control invariant. -/
def Obligations.ControlInvHoldsAtReset : Prop := ControlInv State.reset

/-- R49 whole, and what is readable is a finished result (R43): the whole invariant is kept by every step. -/
def Obligations.WholeInvIsKeptByEveryStep : Prop :=
  ∀ s t : State, Inv s → step s = .next t → Inv t

/-- The state after reset meets the whole invariant. -/
def Obligations.WholeInvHoldsAtReset : Prop := Inv State.reset

/-- R180, R250: every step from every state answers a next state, whatever word or event comes. -/
def Obligations.EveryStepAnswers : Prop :=
  ∀ s : State, ∃ t, step s = .next t ∧ t.port = s.port.tail ∧
    (∀ w rest, s.port = .command w :: rest → t.rsp.isSome = true)

/-- R3: no hidden content matters: two states the host cannot tell apart stay so under every event, whatever unspecified
registers hold, so every response is the same. -/
def Obligations.HiddenContentNeverShows : Prop :=
  ∀ s t : State, SameForHost s t → ControlInv s →
    ∃ s' t', step s = .next s' ∧ step t = .next t' ∧ SameForHost s' t'
end

