-- ==== Sys2Proof/Laws/State.lean ====
section
/-! SUPPORT. What each plain update of the state writes and keeps: one lemma per field per update, each true by rfl
(by unfolding for the irreducible `compress`). -/

namespace Sys2Proof.Machine

/-- Two states with equal fields are equal. -/
theorem State.ext_fields {s t : State} (h1 : s.h = t.h) (h2 : s.vars = t.vars) (h3 : s.w = t.w) (h4 : s.t = t.t)
    (h5 : s.blk = t.blk) (h6 : s.fill = t.fill) (h7 : s.len = t.len) (h8 : s.k0 = t.k0) (h9 : s.ih = t.ih)
    (h10 : s.pw = t.pw) (h11 : s.fr = t.fr) (h12 : s.op = t.op) (h13 : s.phase = t.phase) (h14 : s.dv = t.dv)
    (h15 : s.pv = t.pv) (h16 : s.kv = t.kv) (h17 : s.ihv = t.ihv) (h18 : s.fault = t.fault)
    (h19 : s.errcode = t.errcode) (h20 : s.rsp = t.rsp) (h21 : s.port = t.port) (h22 : s.draws = t.draws) : s = t := by
  cases s; cases t; simp_all

/-! ### respond -/

@[simp] theorem respond_h (d : Byte) (s : State) : (respond d s).h = s.h := rfl
@[simp] theorem respond_vars (d : Byte) (s : State) : (respond d s).vars = s.vars := rfl
@[simp] theorem respond_w (d : Byte) (s : State) : (respond d s).w = s.w := rfl
@[simp] theorem respond_t (d : Byte) (s : State) : (respond d s).t = s.t := rfl
@[simp] theorem respond_blk (d : Byte) (s : State) : (respond d s).blk = s.blk := rfl
@[simp] theorem respond_fill (d : Byte) (s : State) : (respond d s).fill = s.fill := rfl
@[simp] theorem respond_len (d : Byte) (s : State) : (respond d s).len = s.len := rfl
@[simp] theorem respond_k0 (d : Byte) (s : State) : (respond d s).k0 = s.k0 := rfl
@[simp] theorem respond_ih (d : Byte) (s : State) : (respond d s).ih = s.ih := rfl
@[simp] theorem respond_pw (d : Byte) (s : State) : (respond d s).pw = s.pw := rfl
@[simp] theorem respond_fr (d : Byte) (s : State) : (respond d s).fr = s.fr := rfl
@[simp] theorem respond_op (d : Byte) (s : State) : (respond d s).op = s.op := rfl
@[simp] theorem respond_phase (d : Byte) (s : State) : (respond d s).phase = s.phase := rfl
@[simp] theorem respond_dv (d : Byte) (s : State) : (respond d s).dv = s.dv := rfl
@[simp] theorem respond_pv (d : Byte) (s : State) : (respond d s).pv = s.pv := rfl
@[simp] theorem respond_kv (d : Byte) (s : State) : (respond d s).kv = s.kv := rfl
@[simp] theorem respond_ihv (d : Byte) (s : State) : (respond d s).ihv = s.ihv := rfl
@[simp] theorem respond_fault (d : Byte) (s : State) : (respond d s).fault = s.fault := rfl
@[simp] theorem respond_errcode (d : Byte) (s : State) : (respond d s).errcode = s.errcode := rfl
@[simp] theorem respond_rsp (d : Byte) (s : State) : (respond d s).rsp = some (0x00#8 ++ d) := rfl
@[simp] theorem respond_port (d : Byte) (s : State) : (respond d s).port = s.port := rfl
@[simp] theorem respond_draws (d : Byte) (s : State) : (respond d s).draws = s.draws := rfl

/-! ### raiseErr -/

@[simp] theorem raiseErr_h (e : Err) (s : State) : (raiseErr e s).h = s.h := rfl
@[simp] theorem raiseErr_vars (e : Err) (s : State) : (raiseErr e s).vars = s.vars := rfl
@[simp] theorem raiseErr_w (e : Err) (s : State) : (raiseErr e s).w = s.w := rfl
@[simp] theorem raiseErr_t (e : Err) (s : State) : (raiseErr e s).t = s.t := rfl
@[simp] theorem raiseErr_blk (e : Err) (s : State) : (raiseErr e s).blk = s.blk := rfl
@[simp] theorem raiseErr_fill (e : Err) (s : State) : (raiseErr e s).fill = s.fill := rfl
@[simp] theorem raiseErr_len (e : Err) (s : State) : (raiseErr e s).len = s.len := rfl
@[simp] theorem raiseErr_k0 (e : Err) (s : State) : (raiseErr e s).k0 = s.k0 := rfl
@[simp] theorem raiseErr_ih (e : Err) (s : State) : (raiseErr e s).ih = s.ih := rfl
@[simp] theorem raiseErr_pw (e : Err) (s : State) : (raiseErr e s).pw = s.pw := rfl
@[simp] theorem raiseErr_fr (e : Err) (s : State) : (raiseErr e s).fr = s.fr := rfl
@[simp] theorem raiseErr_op (e : Err) (s : State) : (raiseErr e s).op = s.op := rfl
@[simp] theorem raiseErr_phase (e : Err) (s : State) : (raiseErr e s).phase = s.phase := rfl
@[simp] theorem raiseErr_dv (e : Err) (s : State) : (raiseErr e s).dv = s.dv := rfl
@[simp] theorem raiseErr_pv (e : Err) (s : State) : (raiseErr e s).pv = s.pv := rfl
@[simp] theorem raiseErr_kv (e : Err) (s : State) : (raiseErr e s).kv = s.kv := rfl
@[simp] theorem raiseErr_ihv (e : Err) (s : State) : (raiseErr e s).ihv = s.ihv := rfl
@[simp] theorem raiseErr_fault (e : Err) (s : State) : (raiseErr e s).fault = true := rfl
@[simp] theorem raiseErr_errcode (e : Err) (s : State) : (raiseErr e s).errcode = if s.errcode = 0x00#8 then errCode e else s.errcode := rfl
@[simp] theorem raiseErr_rsp (e : Err) (s : State) : (raiseErr e s).rsp = some (errCode e ++ 0x00#8) := rfl
@[simp] theorem raiseErr_port (e : Err) (s : State) : (raiseErr e s).port = s.port := rfl
@[simp] theorem raiseErr_draws (e : Err) (s : State) : (raiseErr e s).draws = s.draws := rfl

/-! ### clearValid -/

@[simp] theorem clearValid_h (s : State) : (clearValid s).h = s.h := rfl
@[simp] theorem clearValid_vars (s : State) : (clearValid s).vars = s.vars := rfl
@[simp] theorem clearValid_w (s : State) : (clearValid s).w = s.w := rfl
@[simp] theorem clearValid_t (s : State) : (clearValid s).t = s.t := rfl
@[simp] theorem clearValid_blk (s : State) : (clearValid s).blk = s.blk := rfl
@[simp] theorem clearValid_fill (s : State) : (clearValid s).fill = s.fill := rfl
@[simp] theorem clearValid_len (s : State) : (clearValid s).len = s.len := rfl
@[simp] theorem clearValid_k0 (s : State) : (clearValid s).k0 = s.k0 := rfl
@[simp] theorem clearValid_ih (s : State) : (clearValid s).ih = s.ih := rfl
@[simp] theorem clearValid_pw (s : State) : (clearValid s).pw = s.pw := rfl
@[simp] theorem clearValid_fr (s : State) : (clearValid s).fr = s.fr := rfl
@[simp] theorem clearValid_op (s : State) : (clearValid s).op = s.op := rfl
@[simp] theorem clearValid_phase (s : State) : (clearValid s).phase = s.phase := rfl
@[simp] theorem clearValid_dv (s : State) : (clearValid s).dv = false := rfl
@[simp] theorem clearValid_pv (s : State) : (clearValid s).pv = false := rfl
@[simp] theorem clearValid_kv (s : State) : (clearValid s).kv = false := rfl
@[simp] theorem clearValid_ihv (s : State) : (clearValid s).ihv = false := rfl
@[simp] theorem clearValid_fault (s : State) : (clearValid s).fault = s.fault := rfl
@[simp] theorem clearValid_errcode (s : State) : (clearValid s).errcode = s.errcode := rfl
@[simp] theorem clearValid_rsp (s : State) : (clearValid s).rsp = s.rsp := rfl
@[simp] theorem clearValid_port (s : State) : (clearValid s).port = s.port := rfl
@[simp] theorem clearValid_draws (s : State) : (clearValid s).draws = s.draws := rfl

/-! ### setSeq -/

@[simp] theorem setSeq_h (o : Op) (p : Phase) (s : State) : (setSeq o p s).h = s.h := rfl
@[simp] theorem setSeq_vars (o : Op) (p : Phase) (s : State) : (setSeq o p s).vars = s.vars := rfl
@[simp] theorem setSeq_w (o : Op) (p : Phase) (s : State) : (setSeq o p s).w = s.w := rfl
@[simp] theorem setSeq_t (o : Op) (p : Phase) (s : State) : (setSeq o p s).t = s.t := rfl
@[simp] theorem setSeq_blk (o : Op) (p : Phase) (s : State) : (setSeq o p s).blk = s.blk := rfl
@[simp] theorem setSeq_fill (o : Op) (p : Phase) (s : State) : (setSeq o p s).fill = s.fill := rfl
@[simp] theorem setSeq_len (o : Op) (p : Phase) (s : State) : (setSeq o p s).len = s.len := rfl
@[simp] theorem setSeq_k0 (o : Op) (p : Phase) (s : State) : (setSeq o p s).k0 = s.k0 := rfl
@[simp] theorem setSeq_ih (o : Op) (p : Phase) (s : State) : (setSeq o p s).ih = s.ih := rfl
@[simp] theorem setSeq_pw (o : Op) (p : Phase) (s : State) : (setSeq o p s).pw = s.pw := rfl
@[simp] theorem setSeq_fr (o : Op) (p : Phase) (s : State) : (setSeq o p s).fr = s.fr := rfl
@[simp] theorem setSeq_op (o : Op) (p : Phase) (s : State) : (setSeq o p s).op = o := rfl
@[simp] theorem setSeq_phase (o : Op) (p : Phase) (s : State) : (setSeq o p s).phase = p := rfl
@[simp] theorem setSeq_dv (o : Op) (p : Phase) (s : State) : (setSeq o p s).dv = s.dv := rfl
@[simp] theorem setSeq_pv (o : Op) (p : Phase) (s : State) : (setSeq o p s).pv = s.pv := rfl
@[simp] theorem setSeq_kv (o : Op) (p : Phase) (s : State) : (setSeq o p s).kv = s.kv := rfl
@[simp] theorem setSeq_ihv (o : Op) (p : Phase) (s : State) : (setSeq o p s).ihv = s.ihv := rfl
@[simp] theorem setSeq_fault (o : Op) (p : Phase) (s : State) : (setSeq o p s).fault = s.fault := rfl
@[simp] theorem setSeq_errcode (o : Op) (p : Phase) (s : State) : (setSeq o p s).errcode = s.errcode := rfl
@[simp] theorem setSeq_rsp (o : Op) (p : Phase) (s : State) : (setSeq o p s).rsp = s.rsp := rfl
@[simp] theorem setSeq_port (o : Op) (p : Phase) (s : State) : (setSeq o p s).port = s.port := rfl
@[simp] theorem setSeq_draws (o : Op) (p : Phase) (s : State) : (setSeq o p s).draws = s.draws := rfl

/-! ### shaInit -/

@[simp] theorem shaInit_h (s : State) : (shaInit s).h = ivrom := rfl
@[simp] theorem shaInit_vars (s : State) : (shaInit s).vars = s.vars := rfl
@[simp] theorem shaInit_w (s : State) : (shaInit s).w = s.w := rfl
@[simp] theorem shaInit_t (s : State) : (shaInit s).t = s.t := rfl
@[simp] theorem shaInit_blk (s : State) : (shaInit s).blk = s.blk := rfl
@[simp] theorem shaInit_fill (s : State) : (shaInit s).fill = 0 := rfl
@[simp] theorem shaInit_len (s : State) : (shaInit s).len = 0 := rfl
@[simp] theorem shaInit_k0 (s : State) : (shaInit s).k0 = s.k0 := rfl
@[simp] theorem shaInit_ih (s : State) : (shaInit s).ih = s.ih := rfl
@[simp] theorem shaInit_pw (s : State) : (shaInit s).pw = s.pw := rfl
@[simp] theorem shaInit_fr (s : State) : (shaInit s).fr = s.fr := rfl
@[simp] theorem shaInit_op (s : State) : (shaInit s).op = s.op := rfl
@[simp] theorem shaInit_phase (s : State) : (shaInit s).phase = s.phase := rfl
@[simp] theorem shaInit_dv (s : State) : (shaInit s).dv = s.dv := rfl
@[simp] theorem shaInit_pv (s : State) : (shaInit s).pv = s.pv := rfl
@[simp] theorem shaInit_kv (s : State) : (shaInit s).kv = s.kv := rfl
@[simp] theorem shaInit_ihv (s : State) : (shaInit s).ihv = s.ihv := rfl
@[simp] theorem shaInit_fault (s : State) : (shaInit s).fault = s.fault := rfl
@[simp] theorem shaInit_errcode (s : State) : (shaInit s).errcode = s.errcode := rfl
@[simp] theorem shaInit_rsp (s : State) : (shaInit s).rsp = s.rsp := rfl
@[simp] theorem shaInit_port (s : State) : (shaInit s).port = s.port := rfl
@[simp] theorem shaInit_draws (s : State) : (shaInit s).draws = s.draws := rfl

/-! ### storeByte -/

@[simp] theorem storeByte_h (b : Byte) (s : State) : (storeByte b s).h = s.h := rfl
@[simp] theorem storeByte_vars (b : Byte) (s : State) : (storeByte b s).vars = s.vars := rfl
@[simp] theorem storeByte_w (b : Byte) (s : State) : (storeByte b s).w = s.w := rfl
@[simp] theorem storeByte_t (b : Byte) (s : State) : (storeByte b s).t = s.t := rfl
@[simp] theorem storeByte_blk (b : Byte) (s : State) : (storeByte b s).blk = setAt s.blk s.fill.toNat b := rfl
@[simp] theorem storeByte_fill (b : Byte) (s : State) : (storeByte b s).fill = s.fill + 1 := rfl
@[simp] theorem storeByte_len (b : Byte) (s : State) : (storeByte b s).len = s.len := rfl
@[simp] theorem storeByte_k0 (b : Byte) (s : State) : (storeByte b s).k0 = s.k0 := rfl
@[simp] theorem storeByte_ih (b : Byte) (s : State) : (storeByte b s).ih = s.ih := rfl
@[simp] theorem storeByte_pw (b : Byte) (s : State) : (storeByte b s).pw = s.pw := rfl
@[simp] theorem storeByte_fr (b : Byte) (s : State) : (storeByte b s).fr = s.fr := rfl
@[simp] theorem storeByte_op (b : Byte) (s : State) : (storeByte b s).op = s.op := rfl
@[simp] theorem storeByte_phase (b : Byte) (s : State) : (storeByte b s).phase = s.phase := rfl
@[simp] theorem storeByte_dv (b : Byte) (s : State) : (storeByte b s).dv = s.dv := rfl
@[simp] theorem storeByte_pv (b : Byte) (s : State) : (storeByte b s).pv = s.pv := rfl
@[simp] theorem storeByte_kv (b : Byte) (s : State) : (storeByte b s).kv = s.kv := rfl
@[simp] theorem storeByte_ihv (b : Byte) (s : State) : (storeByte b s).ihv = s.ihv := rfl
@[simp] theorem storeByte_fault (b : Byte) (s : State) : (storeByte b s).fault = s.fault := rfl
@[simp] theorem storeByte_errcode (b : Byte) (s : State) : (storeByte b s).errcode = s.errcode := rfl
@[simp] theorem storeByte_rsp (b : Byte) (s : State) : (storeByte b s).rsp = s.rsp := rfl
@[simp] theorem storeByte_port (b : Byte) (s : State) : (storeByte b s).port = s.port := rfl
@[simp] theorem storeByte_draws (b : Byte) (s : State) : (storeByte b s).draws = s.draws := rfl

/-! ### encodeResult -/

@[simp] theorem encodeResult_h (s : State) : (encodeResult s).h = s.h := rfl
@[simp] theorem encodeResult_vars (s : State) : (encodeResult s).vars = s.vars := rfl
@[simp] theorem encodeResult_w (s : State) : (encodeResult s).w = s.w := rfl
@[simp] theorem encodeResult_t (s : State) : (encodeResult s).t = s.t := rfl
@[simp] theorem encodeResult_blk (s : State) : (encodeResult s).blk = s.blk := rfl
@[simp] theorem encodeResult_fill (s : State) : (encodeResult s).fill = s.fill := rfl
@[simp] theorem encodeResult_len (s : State) : (encodeResult s).len = s.len := rfl
@[simp] theorem encodeResult_k0 (s : State) : (encodeResult s).k0 = s.k0 := rfl
@[simp] theorem encodeResult_ih (s : State) : (encodeResult s).ih = s.ih := rfl
@[simp] theorem encodeResult_pw (s : State) : (encodeResult s).pw = passwordOf s.h := rfl
@[simp] theorem encodeResult_fr (s : State) : (encodeResult s).fr = fragmentOf s.h := rfl
@[simp] theorem encodeResult_op (s : State) : (encodeResult s).op = s.op := rfl
@[simp] theorem encodeResult_phase (s : State) : (encodeResult s).phase = s.phase := rfl
@[simp] theorem encodeResult_dv (s : State) : (encodeResult s).dv = s.dv := rfl
@[simp] theorem encodeResult_pv (s : State) : (encodeResult s).pv = s.pv := rfl
@[simp] theorem encodeResult_kv (s : State) : (encodeResult s).kv = s.kv := rfl
@[simp] theorem encodeResult_ihv (s : State) : (encodeResult s).ihv = s.ihv := rfl
@[simp] theorem encodeResult_fault (s : State) : (encodeResult s).fault = s.fault := rfl
@[simp] theorem encodeResult_errcode (s : State) : (encodeResult s).errcode = s.errcode := rfl
@[simp] theorem encodeResult_rsp (s : State) : (encodeResult s).rsp = s.rsp := rfl
@[simp] theorem encodeResult_port (s : State) : (encodeResult s).port = s.port := rfl
@[simp] theorem encodeResult_draws (s : State) : (encodeResult s).draws = s.draws := rfl

/-! ### compress: the fields it keeps -/

@[simp] theorem compress_t (s : State) : (compress s).t = 0 := by
  simp only [compress, addIn, rounds, loadVars, expandW, loadW]
@[simp] theorem compress_blk (s : State) : (compress s).blk = s.blk := by
  simp only [compress, addIn, rounds, loadVars, expandW, loadW]
@[simp] theorem compress_fill (s : State) : (compress s).fill = s.fill := by
  simp only [compress, addIn, rounds, loadVars, expandW, loadW]
@[simp] theorem compress_len (s : State) : (compress s).len = s.len := by
  simp only [compress, addIn, rounds, loadVars, expandW, loadW]
@[simp] theorem compress_k0 (s : State) : (compress s).k0 = s.k0 := by
  simp only [compress, addIn, rounds, loadVars, expandW, loadW]
@[simp] theorem compress_ih (s : State) : (compress s).ih = s.ih := by
  simp only [compress, addIn, rounds, loadVars, expandW, loadW]
@[simp] theorem compress_pw (s : State) : (compress s).pw = s.pw := by
  simp only [compress, addIn, rounds, loadVars, expandW, loadW]
@[simp] theorem compress_fr (s : State) : (compress s).fr = s.fr := by
  simp only [compress, addIn, rounds, loadVars, expandW, loadW]
@[simp] theorem compress_op (s : State) : (compress s).op = s.op := by
  simp only [compress, addIn, rounds, loadVars, expandW, loadW]
@[simp] theorem compress_phase (s : State) : (compress s).phase = s.phase := by
  simp only [compress, addIn, rounds, loadVars, expandW, loadW]
@[simp] theorem compress_dv (s : State) : (compress s).dv = s.dv := by
  simp only [compress, addIn, rounds, loadVars, expandW, loadW]
@[simp] theorem compress_pv (s : State) : (compress s).pv = s.pv := by
  simp only [compress, addIn, rounds, loadVars, expandW, loadW]
@[simp] theorem compress_kv (s : State) : (compress s).kv = s.kv := by
  simp only [compress, addIn, rounds, loadVars, expandW, loadW]
@[simp] theorem compress_ihv (s : State) : (compress s).ihv = s.ihv := by
  simp only [compress, addIn, rounds, loadVars, expandW, loadW]
@[simp] theorem compress_fault (s : State) : (compress s).fault = s.fault := by
  simp only [compress, addIn, rounds, loadVars, expandW, loadW]
@[simp] theorem compress_errcode (s : State) : (compress s).errcode = s.errcode := by
  simp only [compress, addIn, rounds, loadVars, expandW, loadW]
@[simp] theorem compress_rsp (s : State) : (compress s).rsp = s.rsp := by
  simp only [compress, addIn, rounds, loadVars, expandW, loadW]
@[simp] theorem compress_port (s : State) : (compress s).port = s.port := by
  simp only [compress, addIn, rounds, loadVars, expandW, loadW]
@[simp] theorem compress_draws (s : State) : (compress s).draws = s.draws := by
  simp only [compress, addIn, rounds, loadVars, expandW, loadW]

/-! ### resetRegs: the control registers, and the fields that are no registers -/

@[simp] theorem resetRegs_t (s : State) : (resetRegs s).t = 0 := rfl
@[simp] theorem resetRegs_fill (s : State) : (resetRegs s).fill = 0 := rfl
@[simp] theorem resetRegs_len (s : State) : (resetRegs s).len = 0 := rfl
@[simp] theorem resetRegs_op (s : State) : (resetRegs s).op = .idle := rfl
@[simp] theorem resetRegs_phase (s : State) : (resetRegs s).phase = .key := rfl
@[simp] theorem resetRegs_dv (s : State) : (resetRegs s).dv = false := rfl
@[simp] theorem resetRegs_pv (s : State) : (resetRegs s).pv = false := rfl
@[simp] theorem resetRegs_kv (s : State) : (resetRegs s).kv = false := rfl
@[simp] theorem resetRegs_ihv (s : State) : (resetRegs s).ihv = false := rfl
@[simp] theorem resetRegs_fault (s : State) : (resetRegs s).fault = false := rfl
@[simp] theorem resetRegs_errcode (s : State) : (resetRegs s).errcode = 0x00 := rfl
@[simp] theorem resetRegs_rsp (s : State) : (resetRegs s).rsp = s.rsp := rfl
@[simp] theorem resetRegs_port (s : State) : (resetRegs s).port = s.port := rfl
@[simp] theorem resetRegs_draws (s : State) : (resetRegs s).draws = s.draws + 1 := rfl

end Sys2Proof.Machine
end

