-- ==== Sys2Proof/Laws/Engine.lean ====
section
/-! SUPPORT. What the SHA1CE micro-operations can write, and what they can never write. -/

namespace Sys2Proof.Machine

/-! ### Loops and register files -/

/-- A loop splits at any point of its range. -/
theorem forUp_add {σ : Type} (f : Nat → σ → σ) (start m n : Nat) (s : σ) :
    forUp f start (m + n) s = forUp f (start + m) n (forUp f start m s) := by
  induction m generalizing start s with
  | zero => simp [forUp]
  | succ m ih =>
    rw [Nat.add_right_comm m 1 n, forUp, forUp, ih, Nat.add_right_comm start 1 m]
    rfl

/-- The last turn of a loop. -/
theorem forUp_succ {σ : Type} (f : Nat → σ → σ) (start n : Nat) (s : σ) :
    forUp f start (n + 1) s = f (start + n) (forUp f start n s) := by
  rw [forUp_add, forUp, forUp]

/-- The last of a loop's turns, when one is left: the form in which a run of writes is peeled. -/
theorem forUp_invariant {σ : Type} (P : Nat → σ → Prop) (f : Nat → σ → σ) (start n : Nat) (s : σ)
    (h0 : P start s) (hs : ∀ i r, start ≤ i → i < start + n → P i r → P (i + 1) (f i r)) :
    P (start + n) (forUp f start n s) := by
  induction n with
  | zero => rw [forUp]; exact h0
  | succ n ih =>
    rw [forUp_succ]
    exact hs _ _ (Nat.le_add_right _ _) (Nat.lt_succ_self _)
      (ih fun i r h1 h2 => hs i r h1 (Nat.lt_succ_of_lt h2))

theorem getAt_setAt_self {n k : Nat} (x : Vector (BitVec k) n) (i : Nat) (v : BitVec k) (h : i < n) :
    getAt (setAt x i v) i = v := by
  simp [getAt, setAt, Vector.getD, h]

theorem getAt_setAt_ne {n k : Nat} (x : Vector (BitVec k) n) {i j : Nat} (v : BitVec k) (h : i ≠ j) :
    getAt (setAt x i v) j = getAt x j := by
  by_cases hj : j < n
  · simp [getAt, setAt, Vector.getD, hj, h]
  · simp [getAt, setAt, Vector.getD, hj]

/-- Beyond the file a read gives 0. -/
theorem getAt_of_le {n k : Nat} (x : Vector (BitVec k) n) {i : Nat} (h : n ≤ i) : getAt x i = 0 := by
  simp [getAt, Vector.getD, Nat.not_lt.mpr h]

/-- Register files that agree at every index are equal. -/
theorem eq_of_getAt {n k : Nat} {x y : Vector (BitVec k) n} (h : ∀ i, i < n → getAt x i = getAt y i) : x = y := by
  apply Vector.ext
  intro i hi
  simpa [getAt, Vector.getD, hi] using h i hi

theorem getAt_ofFn {n k : Nat} (f : Fin n → BitVec k) {i : Nat} (h : i < n) : getAt (Vector.ofFn f) i = f ⟨i, h⟩ := by
  simp [getAt, Vector.getD, h]

/-! ### Who writes what -/

/-- `t` differs from `s` in the SHA1CE registers (R21 to R27) at most. -/
def OnlyEngine (s t : State) : Prop := ∃ r, t = onEngine s r

theorem OnlyEngine.refl (s : State) : OnlyEngine s s := ⟨s, rfl⟩

theorem OnlyEngine.trans {s t u : State} (h1 : OnlyEngine s t) (h2 : OnlyEngine t u) : OnlyEngine s u := by
  obtain ⟨r, rfl⟩ := h1
  obtain ⟨q, rfl⟩ := h2
  exact ⟨q, rfl⟩

theorem forUp_onlyEngine (f : Nat → State → State) (start n : Nat) (s : State)
    (h : ∀ i r, OnlyEngine r (f i r)) : OnlyEngine s (forUp f start n s) := by
  induction n with
  | zero => rw [forUp]; exact .refl s
  | succ n ih => rw [forUp_succ]; exact ih.trans (h _ _)

theorem onEngine_onlyEngine (s r : State) : OnlyEngine s (onEngine s r) := ⟨r, rfl⟩

/-- Where `r` differs from `s` in the SHA1CE registers only, nothing is lost. -/
theorem onEngine_eq {s r : State} (h : OnlyEngine s r) : onEngine s r = r := by
  obtain ⟨q, rfl⟩ := h
  rfl

theorem put_onlyEngine (b : Byte) (s : State) : OnlyEngine s (put b s) := ⟨_, rfl⟩

/-- `Put` without its frame. -/
theorem put_eq (b : Byte) (s : State) : put b s =
    if (storeByte b s).fill = 64 then { compress (storeByte b s) with fill := 0 } else storeByte b s := by
  unfold put
  apply onEngine_eq
  split
  · exact ⟨{ compress (storeByte b s) with fill := 0 }, by apply State.ext_fields <;> simp [onEngine]⟩
  · exact ⟨storeByte b s, rfl⟩

theorem absorb_onlyEngine (b : Byte) (s : State) : OnlyEngine s (absorb b s) :=
  OnlyEngine.trans (t := { s with len := s.len + 1 }) ⟨{ s with len := s.len + 1 }, rfl⟩ (put_onlyEngine b _)

theorem padZeros_onlyEngine (n : Nat) (s : State) : OnlyEngine s (padZeros n s) := by
  induction n generalizing s with
  | zero => unfold padZeros; exact .refl s
  | succ n ih =>
    unfold padZeros; split
    · exact .refl s
    · exact (put_onlyEngine _ s).trans (ih _)

theorem finalize_onlyEngine (s : State) : OnlyEngine s (finalize s) := ⟨_, rfl⟩

/-- `Finalize` without its frame. -/
theorem finalize_eq (s : State) : finalize s =
    forUp (fun k r => put (be64Byte (bitLength s.len) k) r) 0 8 (padZeros 128 (put padMark s)) :=
  onEngine_eq (((put_onlyEngine _ s).trans (padZeros_onlyEngine _ _)).trans
    (forUp_onlyEngine _ _ _ _ fun _ r => put_onlyEngine _ r))

theorem absorbPad_onlyEngine (pad : Byte) (s : State) : OnlyEngine s (absorbPad pad s) := ⟨_, rfl⟩

theorem absorbInnerHash_onlyEngine (s : State) : OnlyEngine s (absorbInnerHash s) := ⟨_, rfl⟩

theorem shaInit_onlyEngine (s : State) : OnlyEngine s (shaInit s) := ⟨shaInit s, rfl⟩

theorem outerHash_onlyEngine (s : State) : OnlyEngine s (outerHash s) :=
  (((shaInit_onlyEngine s).trans (absorbPad_onlyEngine _ _)).trans (absorbInnerHash_onlyEngine _)).trans
    (finalize_onlyEngine _)

/-- `Put` does not change `LEN` (R102). -/
@[simp] theorem put_len (b : Byte) (s : State) : (put b s).len = s.len := by
  rw [put_eq]; split <;> simp

@[simp] theorem absorb_len (b : Byte) (s : State) : (absorb b s).len = s.len + 1 := by
  simp [absorb]

@[simp] theorem padZeros_len (n : Nat) (s : State) : (padZeros n s).len = s.len := by
  induction n generalizing s with
  | zero => unfold padZeros; rfl
  | succ n ih => unfold padZeros; split <;> simp [ih]

/-- `Finalize` does not change `LEN` (R104). -/
@[simp] theorem finalize_len (s : State) : (finalize s).len = s.len := by
  have := forUp_invariant (P := fun _ (r : State) => r.len = s.len)
    (fun k r => put (be64Byte (bitLength s.len) k) r) 0 8 (padZeros 128 (put padMark s)) (by simp)
    (by intro i r _ _ h; simpa using h)
  rw [finalize_eq]
  exact this

end Sys2Proof.Machine
end

