-- ==== Sys2Proof/Laws/EngineFields.lean ====
section
/-! SUPPORT. The fields the SHA1CE micro-operations keep, one lemma per field per operation. -/

namespace Sys2Proof.Machine

theorem OnlyEngine.keeps_k0 {s t : State} (h : OnlyEngine s t) : t.k0 = s.k0 := by obtain ⟨r, rfl⟩ := h; rfl
theorem OnlyEngine.keeps_ih {s t : State} (h : OnlyEngine s t) : t.ih = s.ih := by obtain ⟨r, rfl⟩ := h; rfl
theorem OnlyEngine.keeps_pw {s t : State} (h : OnlyEngine s t) : t.pw = s.pw := by obtain ⟨r, rfl⟩ := h; rfl
theorem OnlyEngine.keeps_fr {s t : State} (h : OnlyEngine s t) : t.fr = s.fr := by obtain ⟨r, rfl⟩ := h; rfl
theorem OnlyEngine.keeps_op {s t : State} (h : OnlyEngine s t) : t.op = s.op := by obtain ⟨r, rfl⟩ := h; rfl
theorem OnlyEngine.keeps_phase {s t : State} (h : OnlyEngine s t) : t.phase = s.phase := by obtain ⟨r, rfl⟩ := h; rfl
theorem OnlyEngine.keeps_dv {s t : State} (h : OnlyEngine s t) : t.dv = s.dv := by obtain ⟨r, rfl⟩ := h; rfl
theorem OnlyEngine.keeps_pv {s t : State} (h : OnlyEngine s t) : t.pv = s.pv := by obtain ⟨r, rfl⟩ := h; rfl
theorem OnlyEngine.keeps_kv {s t : State} (h : OnlyEngine s t) : t.kv = s.kv := by obtain ⟨r, rfl⟩ := h; rfl
theorem OnlyEngine.keeps_ihv {s t : State} (h : OnlyEngine s t) : t.ihv = s.ihv := by obtain ⟨r, rfl⟩ := h; rfl
theorem OnlyEngine.keeps_fault {s t : State} (h : OnlyEngine s t) : t.fault = s.fault := by obtain ⟨r, rfl⟩ := h; rfl
theorem OnlyEngine.keeps_errcode {s t : State} (h : OnlyEngine s t) : t.errcode = s.errcode := by obtain ⟨r, rfl⟩ := h; rfl
theorem OnlyEngine.keeps_rsp {s t : State} (h : OnlyEngine s t) : t.rsp = s.rsp := by obtain ⟨r, rfl⟩ := h; rfl
theorem OnlyEngine.keeps_port {s t : State} (h : OnlyEngine s t) : t.port = s.port := by obtain ⟨r, rfl⟩ := h; rfl
theorem OnlyEngine.keeps_draws {s t : State} (h : OnlyEngine s t) : t.draws = s.draws := by obtain ⟨r, rfl⟩ := h; rfl

@[simp] theorem put_k0 (b : Byte) (s : State) : (put b s).k0 = s.k0 := rfl
@[simp] theorem put_ih (b : Byte) (s : State) : (put b s).ih = s.ih := rfl
@[simp] theorem put_pw (b : Byte) (s : State) : (put b s).pw = s.pw := rfl
@[simp] theorem put_fr (b : Byte) (s : State) : (put b s).fr = s.fr := rfl
@[simp] theorem put_op (b : Byte) (s : State) : (put b s).op = s.op := rfl
@[simp] theorem put_phase (b : Byte) (s : State) : (put b s).phase = s.phase := rfl
@[simp] theorem put_dv (b : Byte) (s : State) : (put b s).dv = s.dv := rfl
@[simp] theorem put_pv (b : Byte) (s : State) : (put b s).pv = s.pv := rfl
@[simp] theorem put_kv (b : Byte) (s : State) : (put b s).kv = s.kv := rfl
@[simp] theorem put_ihv (b : Byte) (s : State) : (put b s).ihv = s.ihv := rfl
@[simp] theorem put_fault (b : Byte) (s : State) : (put b s).fault = s.fault := rfl
@[simp] theorem put_errcode (b : Byte) (s : State) : (put b s).errcode = s.errcode := rfl
@[simp] theorem put_rsp (b : Byte) (s : State) : (put b s).rsp = s.rsp := rfl
@[simp] theorem put_port (b : Byte) (s : State) : (put b s).port = s.port := rfl
@[simp] theorem put_draws (b : Byte) (s : State) : (put b s).draws = s.draws := rfl

@[simp] theorem absorb_k0 (b : Byte) (s : State) : (absorb b s).k0 = s.k0 := rfl
@[simp] theorem absorb_ih (b : Byte) (s : State) : (absorb b s).ih = s.ih := rfl
@[simp] theorem absorb_pw (b : Byte) (s : State) : (absorb b s).pw = s.pw := rfl
@[simp] theorem absorb_fr (b : Byte) (s : State) : (absorb b s).fr = s.fr := rfl
@[simp] theorem absorb_op (b : Byte) (s : State) : (absorb b s).op = s.op := rfl
@[simp] theorem absorb_phase (b : Byte) (s : State) : (absorb b s).phase = s.phase := rfl
@[simp] theorem absorb_dv (b : Byte) (s : State) : (absorb b s).dv = s.dv := rfl
@[simp] theorem absorb_pv (b : Byte) (s : State) : (absorb b s).pv = s.pv := rfl
@[simp] theorem absorb_kv (b : Byte) (s : State) : (absorb b s).kv = s.kv := rfl
@[simp] theorem absorb_ihv (b : Byte) (s : State) : (absorb b s).ihv = s.ihv := rfl
@[simp] theorem absorb_fault (b : Byte) (s : State) : (absorb b s).fault = s.fault := rfl
@[simp] theorem absorb_errcode (b : Byte) (s : State) : (absorb b s).errcode = s.errcode := rfl
@[simp] theorem absorb_rsp (b : Byte) (s : State) : (absorb b s).rsp = s.rsp := rfl
@[simp] theorem absorb_port (b : Byte) (s : State) : (absorb b s).port = s.port := rfl
@[simp] theorem absorb_draws (b : Byte) (s : State) : (absorb b s).draws = s.draws := rfl

@[simp] theorem finalize_k0 (s : State) : (finalize s).k0 = s.k0 := rfl
@[simp] theorem finalize_ih (s : State) : (finalize s).ih = s.ih := rfl
@[simp] theorem finalize_pw (s : State) : (finalize s).pw = s.pw := rfl
@[simp] theorem finalize_fr (s : State) : (finalize s).fr = s.fr := rfl
@[simp] theorem finalize_op (s : State) : (finalize s).op = s.op := rfl
@[simp] theorem finalize_phase (s : State) : (finalize s).phase = s.phase := rfl
@[simp] theorem finalize_dv (s : State) : (finalize s).dv = s.dv := rfl
@[simp] theorem finalize_pv (s : State) : (finalize s).pv = s.pv := rfl
@[simp] theorem finalize_kv (s : State) : (finalize s).kv = s.kv := rfl
@[simp] theorem finalize_ihv (s : State) : (finalize s).ihv = s.ihv := rfl
@[simp] theorem finalize_fault (s : State) : (finalize s).fault = s.fault := rfl
@[simp] theorem finalize_errcode (s : State) : (finalize s).errcode = s.errcode := rfl
@[simp] theorem finalize_rsp (s : State) : (finalize s).rsp = s.rsp := rfl
@[simp] theorem finalize_port (s : State) : (finalize s).port = s.port := rfl
@[simp] theorem finalize_draws (s : State) : (finalize s).draws = s.draws := rfl

@[simp] theorem absorbPad_k0 (p : Byte) (s : State) : (absorbPad p s).k0 = s.k0 := rfl
@[simp] theorem absorbPad_ih (p : Byte) (s : State) : (absorbPad p s).ih = s.ih := rfl
@[simp] theorem absorbPad_pw (p : Byte) (s : State) : (absorbPad p s).pw = s.pw := rfl
@[simp] theorem absorbPad_fr (p : Byte) (s : State) : (absorbPad p s).fr = s.fr := rfl
@[simp] theorem absorbPad_op (p : Byte) (s : State) : (absorbPad p s).op = s.op := rfl
@[simp] theorem absorbPad_phase (p : Byte) (s : State) : (absorbPad p s).phase = s.phase := rfl
@[simp] theorem absorbPad_dv (p : Byte) (s : State) : (absorbPad p s).dv = s.dv := rfl
@[simp] theorem absorbPad_pv (p : Byte) (s : State) : (absorbPad p s).pv = s.pv := rfl
@[simp] theorem absorbPad_kv (p : Byte) (s : State) : (absorbPad p s).kv = s.kv := rfl
@[simp] theorem absorbPad_ihv (p : Byte) (s : State) : (absorbPad p s).ihv = s.ihv := rfl
@[simp] theorem absorbPad_fault (p : Byte) (s : State) : (absorbPad p s).fault = s.fault := rfl
@[simp] theorem absorbPad_errcode (p : Byte) (s : State) : (absorbPad p s).errcode = s.errcode := rfl
@[simp] theorem absorbPad_rsp (p : Byte) (s : State) : (absorbPad p s).rsp = s.rsp := rfl
@[simp] theorem absorbPad_port (p : Byte) (s : State) : (absorbPad p s).port = s.port := rfl
@[simp] theorem absorbPad_draws (p : Byte) (s : State) : (absorbPad p s).draws = s.draws := rfl

@[simp] theorem outerHash_k0 (s : State) : (outerHash s).k0 = s.k0 := rfl
@[simp] theorem outerHash_ih (s : State) : (outerHash s).ih = s.ih := rfl
@[simp] theorem outerHash_pw (s : State) : (outerHash s).pw = s.pw := rfl
@[simp] theorem outerHash_fr (s : State) : (outerHash s).fr = s.fr := rfl
@[simp] theorem outerHash_op (s : State) : (outerHash s).op = s.op := rfl
@[simp] theorem outerHash_phase (s : State) : (outerHash s).phase = s.phase := rfl
@[simp] theorem outerHash_dv (s : State) : (outerHash s).dv = s.dv := rfl
@[simp] theorem outerHash_pv (s : State) : (outerHash s).pv = s.pv := rfl
@[simp] theorem outerHash_kv (s : State) : (outerHash s).kv = s.kv := rfl
@[simp] theorem outerHash_ihv (s : State) : (outerHash s).ihv = s.ihv := rfl
@[simp] theorem outerHash_fault (s : State) : (outerHash s).fault = s.fault := rfl
@[simp] theorem outerHash_errcode (s : State) : (outerHash s).errcode = s.errcode := rfl
@[simp] theorem outerHash_rsp (s : State) : (outerHash s).rsp = s.rsp := rfl
@[simp] theorem outerHash_port (s : State) : (outerHash s).port = s.port := rfl
@[simp] theorem outerHash_draws (s : State) : (outerHash s).draws = s.draws := rfl

end Sys2Proof.Machine
end

