-- ==== Sys2Proof/Laws/Sha1.lean ====
section
/-! SUPPORT. What Compress, Put, Absorb and Finalize do, said once each (40_sha1_engine.md). -/

namespace Sys2Proof.Machine

/-! ### Compress -/

/-- Two runs of one loop stay related. -/
theorem forUp_rel {σ τ : Type} (P : Nat → σ → τ → Prop) (f : Nat → σ → σ) (g : Nat → τ → τ) (start n : Nat)
    (s : σ) (r : τ) (h0 : P start s r)
    (hs : ∀ i a b, start ≤ i → i < start + n → P i a b → P (i + 1) (f i a) (g i b)) :
    P (start + n) (forUp f start n s) (forUp g start n r) := by
  induction n with
  | zero => rw [forUp, forUp]; exact h0
  | succ n ih =>
    rw [forUp_succ, forUp_succ]
    exact hs _ _ _ (Nat.le_add_right _ _) (Nat.lt_succ_self _)
      (ih fun i a b h1 h2 => hs i a b h1 (Nat.lt_succ_of_lt h2))

/-- The schedule that `LoadW` and `ExpandW` leave for a block. -/
def scheduleOf (blk : Vector Byte 64) : Vector Word 80 :=
  forUp (fun t w => setAt w t (expandWord w t)) 16 64
    (forUp (fun t w => setAt w t (blockWord blk t)) 0 16 (Vector.replicate 80 0))

/-- The working variables after the 80 rounds. -/
def varsAfter (h : Vector Word 5) (blk : Vector Byte 64) : Vars :=
  forUp (fun t v => roundVars t (getAt (scheduleOf blk) t) v) 0 80 (varsOf h)

/-- Agreement below an index, the relation under which the schedule loops are compared. -/
def AgreeBelow (i : Nat) (x y : Vector Word 80) : Prop := ∀ j, j < i → getAt x j = getAt y j

theorem AgreeBelow.set {i : Nat} {x y : Vector Word 80} {u v : Word} (h : AgreeBelow i x y) (huv : u = v) (hi : i < 80) :
    AgreeBelow (i + 1) (setAt x i u) (setAt y i v) := by
  intro j hj
  by_cases hji : i = j
  · subst hji
    rw [getAt_setAt_self _ _ _ hi, getAt_setAt_self _ _ _ hi, huv]
  · rw [getAt_setAt_ne _ _ hji, getAt_setAt_ne _ _ hji]
    exact h j (by omega)

/-- The schedule depends on the block alone: every word of `W` is written before it is read (R111). -/
theorem schedule_of_any (blk : Vector Byte 64) (w : Vector Word 80) :
    forUp (fun t w => setAt w t (expandWord w t)) 16 64
      (forUp (fun t w => setAt w t (blockWord blk t)) 0 16 w) = scheduleOf blk := by
  apply eq_of_getAt
  have h1 := forUp_rel AgreeBelow (fun t w => setAt w t (blockWord blk t)) (fun t w => setAt w t (blockWord blk t))
    0 16 w (Vector.replicate 80 0) (fun j hj => absurd hj (Nat.not_lt_zero j))
    (fun i a b _ hi hab => hab.set rfl (by omega))
  have h2 := forUp_rel AgreeBelow (fun t w => setAt w t (expandWord w t)) (fun t w => setAt w t (expandWord w t))
    16 64 _ _ h1
    (fun i a b hi hi' hab => hab.set (by
      unfold expandWord
      rw [hab (i - 3) (by omega), hab (i - 8) (by omega), hab (i - 14) (by omega), hab (i - 16) (by omega)]) (by omega))
  exact h2

theorem compress_w (s : State) : (compress s).w = scheduleOf s.blk := by
  simp only [compress, addIn, rounds, loadVars, expandW, loadW]
  exact schedule_of_any _ _

theorem compress_vars (s : State) : (compress s).vars = varsAfter s.h s.blk := by
  simp only [compress, addIn, rounds, loadVars, expandW, loadW, varsAfter]
  rw [schedule_of_any]

theorem compress_h_eq (s : State) : (compress s).h = addVars s.h (varsAfter s.h s.blk) := by
  simp only [compress, addIn, rounds, loadVars, expandW, loadW, varsAfter]
  rw [schedule_of_any]

theorem compressFn_eq (h : Vector Word 5) (blk : Vector Byte 64) :
    compressFn h blk = addVars h (varsAfter h blk) := compress_h_eq _

theorem compress_h (s : State) : (compress s).h = compressFn s.h s.blk := by
  rw [compress_h_eq, compressFn_eq]

/-- All that `Compress` does (R111). -/
theorem compress_eq (s : State) : compress s =
    { s with h := compressFn s.h s.blk, vars := varsAfter s.h s.blk, w := scheduleOf s.blk, t := 0 } := by
  apply State.ext_fields <;> simp [compress_w, compress_vars, compress_h]

/-- `rotl32` is rotation to the left, for the distances it is used at. -/
theorem rotl32_eq (x : Word) (n : Nat) (h : n < 32) : rotl32 x n = x.rotateLeft n := by
  rw [rotl32, BitVec.rotateLeft_def, Nat.mod_eq_of_lt h]

/-- The four round constants (R29, R109). -/
theorem roundConst_eq (t : Nat) :
    (t < 20 → roundConst t = 0x5A827999#32) ∧ (20 ≤ t → t < 40 → roundConst t = 0x6ED9EBA1#32) ∧
      (40 ≤ t → t < 60 → roundConst t = 0x8F1BBCDC#32) ∧ (60 ≤ t → t < 80 → roundConst t = 0xCA62C1D6#32) := by
  refine ⟨fun h => ?_, fun h h' => ?_, fun h h' => ?_, fun h h' => ?_⟩
  · rw [roundConst, show t / 20 = 0 by omega]; rfl
  · rw [roundConst, show t / 20 = 1 by omega]; rfl
  · rw [roundConst, show t / 20 = 2 by omega]; rfl
  · rw [roundConst, show t / 20 = 3 by omega]; rfl

/-- The rounds as a trace of working variables, one state before each round and one after the last. The proof never
unrolls the loop; a defeq check that does will not end. -/
theorem rounds_trace (w : Vector Word 80) (u : Vars) :
    ∃ v : Nat → Vars, v 0 = u ∧ (∀ t, v (t + 1) = roundVars t (getAt w t) (v t)) ∧
      v 80 = forUp (fun t v => roundVars t (getAt w t) v) 0 80 u :=
  ⟨fun t => forUp (fun t v => roundVars t (getAt w t) v) 0 t u, by simp only [forUp],
    fun t => by simp only [forUp_succ, Nat.zero_add], by simp only⟩

/-! ### Put -/

theorem fill_succ_eq_64 (f : BitVec 7) : f + 1 = 64 ↔ f.toNat = 63 := by
  constructor
  · intro h
    have := congrArg BitVec.toNat h
    simp at this; omega
  · intro h
    apply BitVec.eq_of_toNat_eq
    simp [h]

/-- `Put` where the byte does not fill the block (R102). -/
theorem put_stores (b : Byte) (s : State) (h : s.fill.toNat ≠ 63) : put b s = storeByte b s := by
  rw [put_eq, if_neg]
  simpa using (not_congr (fill_succ_eq_64 s.fill)).mpr h

/-- `Put` where the byte fills the block (R102). -/
theorem put_compresses (b : Byte) (s : State) (h : s.fill.toNat = 63) :
    put b s = { compress (storeByte b s) with fill := 0 } := by
  rw [put_eq, if_pos]
  simpa using (fill_succ_eq_64 s.fill).mpr h

/-! ### Blocks of a byte sequence -/

theorem blockOf_append (l r : List Byte) (h : 64 ≤ l.length) : blockOf (l ++ r) = blockOf l := by
  apply eq_of_getAt
  intro i hi
  have : i < l.length := by omega
  simp [blockOf, getAt_ofFn, hi, List.getElem?_append_left this]

/-- The last block of a run. -/
theorem hashBlocks_succ (n : Nat) (h : Vector Word 5) (l : List Byte) :
    hashBlocks (n + 1) h l = compressFn (hashBlocks n h l) (blockOf (l.drop (64 * n))) := by
  induction n generalizing h l with
  | zero => simp [hashBlocks]
  | succ n ih =>
    conv_lhs => rw [hashBlocks]
    rw [ih]
    conv_rhs => rw [hashBlocks]
    rw [List.drop_drop, show 64 + 64 * n = 64 * (n + 1) by omega]

/-- Bytes beyond the blocks compressed do not matter. -/
theorem hashBlocks_append (n : Nat) (h : Vector Word 5) (l r : List Byte) (hl : 64 * n ≤ l.length) :
    hashBlocks n h (l ++ r) = hashBlocks n h l := by
  induction n generalizing h l with
  | zero => rfl
  | succ n ih =>
    rw [hashBlocks, hashBlocks, blockOf_append _ _ (by omega), List.drop_append_of_le_length (by omega)]
    exact ih _ _ (by simp; omega)

/-! ### Bytes put into the hash -/

/-- `ShaInit` starts a hash of no bytes (R101). -/
theorem fed_shaInit (s : State) : Fed (shaInit s) [] where
  fill := rfl
  h := rfl
  blk := by intro i hi; simp at hi

theorem Fed.fill_lt {s : State} {m : List Byte} (h : Fed s m) : s.fill.toNat < 64 := by
  rw [h.fill]; omega

/-- `Fed` speaks of `H`, `FILL` and `BLK` only. -/
theorem Fed.congr {s t : State} {m : List Byte} (h : Fed s m) (hh : t.h = s.h) (hf : t.fill = s.fill)
    (hb : t.blk = s.blk) : Fed t m where
  fill := by rw [hf]; exact h.fill
  h := by rw [hh]; exact h.h
  blk := by rw [hb]; exact h.blk

/-- All that `Put` does to a hash in progress: one more byte (R102, R49 (b)). -/
theorem Fed.put {s : State} {m : List Byte} (hs : Fed s m) (b : Byte) : Fed (put b s) (m ++ [b]) := by
  have hf := hs.fill
  have hfile : s.fill.toNat < 64 := hs.fill_lt
  by_cases h63 : s.fill.toNat = 63
  · have hlen : (m ++ [b]).length = 64 * (m.length / 64) + 64 := by simp; omega
    have hq : (m ++ [b]).length / 64 = m.length / 64 + 1 := by omega
    have hblk : setAt s.blk s.fill.toNat b = blockOf ((m ++ [b]).drop (64 * (m.length / 64))) := by
      apply eq_of_getAt
      intro i hi
      rw [blockOf, getAt_ofFn _ hi]
      simp only [List.getD_eq_getElem?_getD, List.getElem?_drop]
      by_cases hi63 : i = 63
      · subst hi63
        rw [h63, getAt_setAt_self _ _ _ (by omega), List.getElem?_append_right (by omega)]
        rw [show 64 * (m.length / 64) + 63 - m.length = 0 by omega]; rfl
      · rw [getAt_setAt_ne _ _ (by omega), hs.blk i (by omega), List.getElem?_append_left (by omega),
          List.getD_eq_getElem?_getD]
    rw [put_compresses b s h63]
    constructor
    · change (0 : BitVec 7).toNat = _
      rw [hlen]
      have : (0 : BitVec 7).toNat = 0 := rfl
      omega
    · change (compress (storeByte b s)).h = _
      rw [compress_h, hq, hashBlocks_succ, hashBlocks_append _ _ _ _ (by omega), storeByte_h, storeByte_blk, hblk, hs.h]
    · intro i hi; omega
  · have hq : (m ++ [b]).length / 64 = m.length / 64 := by simp; omega
    have hr : (m ++ [b]).length % 64 = m.length % 64 + 1 := by simp; omega
    rw [put_stores b s h63]
    constructor
    · rw [storeByte_fill, hr, BitVec.toNat_add, hf]
      have : (1 : BitVec 7).toNat = 1 := rfl
      omega
    · rw [storeByte_h, hq, hashBlocks_append _ _ _ _ (by omega), hs.h]
    · intro i hi
      rw [storeByte_blk, hq, List.getD_eq_getElem?_getD]
      by_cases him : i = m.length % 64
      · subst him
        rw [hf, getAt_setAt_self _ _ _ (by omega), List.getElem?_append_right (by omega)]
        rw [show 64 * (m.length / 64) + m.length % 64 - m.length = 0 by omega]; rfl
      · rw [getAt_setAt_ne _ _ (by omega), hs.blk i (by omega), List.getElem?_append_left (by omega),
          List.getD_eq_getElem?_getD]

/-- A loop of `Put`s appends its bytes. -/
theorem Fed.putLoop {s : State} {m : List Byte} (hs : Fed s m) (g : Nat → Byte) (n : Nat) :
    Fed (forUp (fun i r => Sys2Proof.Machine.put (g i) r) 0 n s) (m ++ (List.range n).map g) := by
  induction n with
  | zero => rw [forUp]; simpa using hs
  | succ n ih =>
    rw [forUp_succ, List.range_succ, List.map_append, ← List.append_assoc, Nat.zero_add]
    exact ih.put _

/-- All that the padding loop does to a hash in progress, with enough turns: zeros up to 56 modulo 64 (R104). -/
theorem Fed.padZeros {s : State} {m : List Byte} (hs : Fed s m) (n : Nat) (hn : (120 - m.length % 64) % 64 ≤ n) :
    Fed (padZeros n s) (m ++ List.replicate ((120 - m.length % 64) % 64) 0x00#8) := by
  induction n generalizing s m with
  | zero =>
    have h0 : (120 - m.length % 64) % 64 = 0 := by omega
    rw [Sys2Proof.Machine.padZeros, h0]
    simpa using hs
  | succ n ih =>
    rw [Sys2Proof.Machine.padZeros]
    by_cases h56 : s.fill = 56
    · have hf := hs.fill
      rw [h56] at hf
      have h0 : (120 - m.length % 64) % 64 = 0 := by
        have : (56 : BitVec 7).toNat = 56 := rfl
        omega
      rw [if_pos h56, h0]
      simpa using hs
    · have hne : m.length % 64 ≠ 56 := by
        intro h
        apply h56
        apply BitVec.eq_of_toNat_eq
        rw [hs.fill, h]; rfl
      have hcnt : (120 - m.length % 64) % 64 = (120 - (m ++ [0x00#8]).length % 64) % 64 + 1 := by simp; omega
      rw [if_neg h56]
      have := ih (hs.put padFill) (by simp [padFill] at hcnt ⊢; omega)
      rw [hcnt, List.replicate_succ, List.append_cons]
      exact this

/-- The bytes of the length field depend on the 64-bit count only. -/
theorem lengthField_eq (n : Nat) : lengthField n = (List.range 8).map (be64Byte (BitVec.ofNat 64 (8 * n))) := rfl

/-- `zext_64(L) * 8` is the message length in bits (R104). -/
theorem bitLength_eq (len : BitVec 61) : bitLength len = BitVec.ofNat 64 (8 * len.toNat) := by
  apply BitVec.eq_of_toNat_eq
  have := len.isLt
  simp [bitLength]
  omega

/-- All that `Finalize` does to a hash of `m`: the padding of R104 is put behind it. -/
theorem Absorbed.finalize {s : State} {m : List Byte} (hs : Absorbed s m) : Fed (finalize s) (padded m) := by
  have hp := (hs.fed.put padMark).padZeros 128 (by omega)
  have hl := hp.putLoop (be64Byte (bitLength s.len)) 8
  rw [finalize_eq]
  have hz : (120 - (m ++ [padMark]).length % 64) % 64 = padCount m.length := by
    simp [padCount]; omega
  rw [hz] at hl
  have hb : (List.range 8).map (be64Byte (bitLength s.len)) = lengthField m.length := by
    rw [bitLength_eq, hs.len, lengthField_eq]
  rw [hb] at hl
  simpa [padded, padMark] using hl

theorem padded_length (m : List Byte) : (padded m).length = 64 * ((m.length + 8) / 64 + 1) := by
  simp [padded, padCount, lengthField]; omega

/-- `Fed` at a whole number of blocks: nothing is left in the buffer. -/
theorem Fed.whole {s : State} {m : List Byte} {n : Nat} (hs : Fed s m) (hm : m.length = 64 * n) :
    s.h = hashBlocks n ivrom m ∧ s.fill = 0 := by
  constructor
  · rw [hs.h, hm, Nat.mul_div_cancel_left _ (by omega)]
  · apply BitVec.eq_of_toNat_eq
    rw [hs.fill, hm]; simp

/-! ### Bytes absorbed -/

theorem absorbed_shaInit (s : State) : Absorbed (shaInit s) [] := ⟨rfl, fed_shaInit s⟩

theorem Absorbed.congr {s t : State} {m : List Byte} (h : Absorbed s m) (hl : t.len = s.len) (hh : t.h = s.h)
    (hf : t.fill = s.fill) (hb : t.blk = s.blk) : Absorbed t m :=
  ⟨by rw [hl]; exact h.len, h.fed.congr hh hf hb⟩

/-- All that `Absorb` does to a hash in progress, below the counter's limit (R103). -/
theorem Absorbed.absorb {s : State} {m : List Byte} (hs : Absorbed s m) (b : Byte) (hlim : m.length < 2 ^ 61 - 1) :
    Absorbed (absorb b s) (m ++ [b]) where
  len := by
    have := hs.len
    rw [absorb_len, BitVec.toNat_add, this]
    have : (1 : BitVec 61).toNat = 1 := rfl
    simp; omega
  fed := Fed.put (s := { s with len := s.len + 1 }) (hs.fed.congr rfl rfl rfl) b

end Sys2Proof.Machine
end

