-- ==== Sys2Proof/Laws/WrapperFields.lean ====
section
/-! SUPPORT. The fields the HMACW and PENC operations write and keep, one lemma per field per operation. -/

namespace Sys2Proof.Machine

/-- `hashLongKey` writes `K0` and the SHA1CE registers at most (R142). -/
theorem hashLongKey_only (s : State) :
    ∃ r, OnlyEngine s r ∧ hashLongKey s = { r with k0 := (hashLongKey s).k0 } := by
  unfold hashLongKey
  split
  · exact ⟨finalize s, finalize_onlyEngine s, rfl⟩
  · exact ⟨s, .refl s, rfl⟩

@[simp] theorem hashLongKey_ih (s : State) : (hashLongKey s).ih = s.ih := by
  obtain ⟨r, hr, hl⟩ := hashLongKey_only s
  rw [hl]; exact hr.keeps_ih
@[simp] theorem hashLongKey_pw (s : State) : (hashLongKey s).pw = s.pw := by
  obtain ⟨r, hr, hl⟩ := hashLongKey_only s
  rw [hl]; exact hr.keeps_pw
@[simp] theorem hashLongKey_fr (s : State) : (hashLongKey s).fr = s.fr := by
  obtain ⟨r, hr, hl⟩ := hashLongKey_only s
  rw [hl]; exact hr.keeps_fr
@[simp] theorem hashLongKey_op (s : State) : (hashLongKey s).op = s.op := by
  obtain ⟨r, hr, hl⟩ := hashLongKey_only s
  rw [hl]; exact hr.keeps_op
@[simp] theorem hashLongKey_phase (s : State) : (hashLongKey s).phase = s.phase := by
  obtain ⟨r, hr, hl⟩ := hashLongKey_only s
  rw [hl]; exact hr.keeps_phase
@[simp] theorem hashLongKey_dv (s : State) : (hashLongKey s).dv = s.dv := by
  obtain ⟨r, hr, hl⟩ := hashLongKey_only s
  rw [hl]; exact hr.keeps_dv
@[simp] theorem hashLongKey_pv (s : State) : (hashLongKey s).pv = s.pv := by
  obtain ⟨r, hr, hl⟩ := hashLongKey_only s
  rw [hl]; exact hr.keeps_pv
@[simp] theorem hashLongKey_kv (s : State) : (hashLongKey s).kv = s.kv := by
  obtain ⟨r, hr, hl⟩ := hashLongKey_only s
  rw [hl]; exact hr.keeps_kv
@[simp] theorem hashLongKey_ihv (s : State) : (hashLongKey s).ihv = s.ihv := by
  obtain ⟨r, hr, hl⟩ := hashLongKey_only s
  rw [hl]; exact hr.keeps_ihv
@[simp] theorem hashLongKey_fault (s : State) : (hashLongKey s).fault = s.fault := by
  obtain ⟨r, hr, hl⟩ := hashLongKey_only s
  rw [hl]; exact hr.keeps_fault
@[simp] theorem hashLongKey_errcode (s : State) : (hashLongKey s).errcode = s.errcode := by
  obtain ⟨r, hr, hl⟩ := hashLongKey_only s
  rw [hl]; exact hr.keeps_errcode
@[simp] theorem hashLongKey_rsp (s : State) : (hashLongKey s).rsp = s.rsp := by
  obtain ⟨r, hr, hl⟩ := hashLongKey_only s
  rw [hl]; exact hr.keeps_rsp
@[simp] theorem hashLongKey_port (s : State) : (hashLongKey s).port = s.port := by
  obtain ⟨r, hr, hl⟩ := hashLongKey_only s
  rw [hl]; exact hr.keeps_port
@[simp] theorem hashLongKey_draws (s : State) : (hashLongKey s).draws = s.draws := by
  obtain ⟨r, hr, hl⟩ := hashLongKey_only s
  rw [hl]; exact hr.keeps_draws

/-- A key of at most 64 bytes is left alone (R142). -/
theorem hashLongKey_short (s : State) (h : s.len.toNat ≤ 64) : hashLongKey s = s := by
  rw [hashLongKey, if_neg (by omega)]

@[simp] theorem keyNormalizeAndInnerStart_kv (s : State) : (keyNormalizeAndInnerStart s).kv = true := by
  rw [keyNormalizeAndInnerStart, absorbPad_kv, shaInit_kv]
@[simp] theorem keyNormalizeAndInnerStart_k0 (s : State) :
    (keyNormalizeAndInnerStart s).k0 = (hashLongKey s).k0 := by
  rw [keyNormalizeAndInnerStart, absorbPad_k0, shaInit_k0]
@[simp] theorem keyNormalizeAndInnerStart_ih (s : State) : (keyNormalizeAndInnerStart s).ih = s.ih := by
  rw [keyNormalizeAndInnerStart, absorbPad_ih, shaInit_ih]; exact hashLongKey_ih s
@[simp] theorem keyNormalizeAndInnerStart_pw (s : State) : (keyNormalizeAndInnerStart s).pw = s.pw := by
  rw [keyNormalizeAndInnerStart, absorbPad_pw, shaInit_pw]; exact hashLongKey_pw s
@[simp] theorem keyNormalizeAndInnerStart_fr (s : State) : (keyNormalizeAndInnerStart s).fr = s.fr := by
  rw [keyNormalizeAndInnerStart, absorbPad_fr, shaInit_fr]; exact hashLongKey_fr s
@[simp] theorem keyNormalizeAndInnerStart_op (s : State) : (keyNormalizeAndInnerStart s).op = s.op := by
  rw [keyNormalizeAndInnerStart, absorbPad_op, shaInit_op]; exact hashLongKey_op s
@[simp] theorem keyNormalizeAndInnerStart_phase (s : State) : (keyNormalizeAndInnerStart s).phase = s.phase := by
  rw [keyNormalizeAndInnerStart, absorbPad_phase, shaInit_phase]; exact hashLongKey_phase s
@[simp] theorem keyNormalizeAndInnerStart_dv (s : State) : (keyNormalizeAndInnerStart s).dv = s.dv := by
  rw [keyNormalizeAndInnerStart, absorbPad_dv, shaInit_dv]; exact hashLongKey_dv s
@[simp] theorem keyNormalizeAndInnerStart_pv (s : State) : (keyNormalizeAndInnerStart s).pv = s.pv := by
  rw [keyNormalizeAndInnerStart, absorbPad_pv, shaInit_pv]; exact hashLongKey_pv s
@[simp] theorem keyNormalizeAndInnerStart_ihv (s : State) : (keyNormalizeAndInnerStart s).ihv = s.ihv := by
  rw [keyNormalizeAndInnerStart, absorbPad_ihv, shaInit_ihv]; exact hashLongKey_ihv s
@[simp] theorem keyNormalizeAndInnerStart_fault (s : State) : (keyNormalizeAndInnerStart s).fault = s.fault := by
  rw [keyNormalizeAndInnerStart, absorbPad_fault, shaInit_fault]; exact hashLongKey_fault s
@[simp] theorem keyNormalizeAndInnerStart_errcode (s : State) : (keyNormalizeAndInnerStart s).errcode = s.errcode := by
  rw [keyNormalizeAndInnerStart, absorbPad_errcode, shaInit_errcode]; exact hashLongKey_errcode s
@[simp] theorem keyNormalizeAndInnerStart_rsp (s : State) : (keyNormalizeAndInnerStart s).rsp = s.rsp := by
  rw [keyNormalizeAndInnerStart, absorbPad_rsp, shaInit_rsp]; exact hashLongKey_rsp s
@[simp] theorem keyNormalizeAndInnerStart_port (s : State) : (keyNormalizeAndInnerStart s).port = s.port := by
  rw [keyNormalizeAndInnerStart, absorbPad_port, shaInit_port]; exact hashLongKey_port s
@[simp] theorem keyNormalizeAndInnerStart_draws (s : State) : (keyNormalizeAndInnerStart s).draws = s.draws := by
  rw [keyNormalizeAndInnerStart, absorbPad_draws, shaInit_draws]; exact hashLongKey_draws s

@[simp] theorem innerFinish_ih (s : State) : (innerFinish s).ih = digestView (finalize s).h := rfl
@[simp] theorem innerFinish_ihv (s : State) : (innerFinish s).ihv = true := rfl
@[simp] theorem innerFinish_k0 (s : State) : (innerFinish s).k0 = s.k0 := rfl
@[simp] theorem innerFinish_pw (s : State) : (innerFinish s).pw = s.pw := rfl
@[simp] theorem innerFinish_fr (s : State) : (innerFinish s).fr = s.fr := rfl
@[simp] theorem innerFinish_op (s : State) : (innerFinish s).op = s.op := rfl
@[simp] theorem innerFinish_phase (s : State) : (innerFinish s).phase = s.phase := rfl
@[simp] theorem innerFinish_dv (s : State) : (innerFinish s).dv = s.dv := rfl
@[simp] theorem innerFinish_pv (s : State) : (innerFinish s).pv = s.pv := rfl
@[simp] theorem innerFinish_kv (s : State) : (innerFinish s).kv = s.kv := rfl
@[simp] theorem innerFinish_fault (s : State) : (innerFinish s).fault = s.fault := rfl
@[simp] theorem innerFinish_errcode (s : State) : (innerFinish s).errcode = s.errcode := rfl
@[simp] theorem innerFinish_rsp (s : State) : (innerFinish s).rsp = s.rsp := rfl
@[simp] theorem innerFinish_port (s : State) : (innerFinish s).port = s.port := rfl
@[simp] theorem innerFinish_draws (s : State) : (innerFinish s).draws = s.draws := rfl

/-- All that `Encode` does (R166). -/
theorem encodeResult_eq (s : State) : encodeResult s = { s with pw := passwordOf s.h, fr := fragmentOf s.h } := rfl

end Sys2Proof.Machine
end

