-- ==== Sys2Proof/Laws/Hmac.lean ====
section
/-! SUPPORT. What the HMACW micro-operations do, said once each (41_hmac_wrapper.md), and where `T` ends. -/

namespace Sys2Proof.Machine

/-! ### `T` ends at 0 -/

/-- A `Put` that fills the block leaves `T` = 0. -/
theorem Fed.put_t {s : State} {m : List Byte} (hs : Fed s m) (b : Byte) (h : m.length % 64 = 63) :
    (Sys2Proof.Machine.put b s).t = 0 := by
  rw [put_compresses b s (by rw [hs.fill, h])]
  simp

/-- An `Absorb` that fills the block leaves `T` = 0. -/
theorem Absorbed.absorb_t {s : State} {m : List Byte} (hs : Absorbed s m) (b : Byte) (h : m.length % 64 = 63) :
    (Sys2Proof.Machine.absorb b s).t = 0 := by
  unfold Sys2Proof.Machine.absorb
  exact Fed.put_t (s := { s with len := s.len + 1 }) (hs.fed.congr rfl rfl rfl) b h

/-- `Put` keeps `T` = 0. -/
theorem put_t_zero (b : Byte) (s : State) (h : s.t = 0) : (put b s).t = 0 := by
  by_cases h63 : s.fill.toNat = 63
  · rw [put_compresses b s h63]; simp
  · rw [put_stores b s h63]; exact h

/-- `Finalize` ends in a `Compress`, so `T` = 0 after it. -/
theorem Absorbed.finalize_t {s : State} {m : List Byte} (hs : Absorbed s m) : (Sys2Proof.Machine.finalize s).t = 0 := by
  have hp := (hs.fed.put padMark).padZeros 128 (by omega)
  have hl := hp.putLoop (be64Byte (bitLength s.len)) 7
  rw [finalize_eq]
  rw [forUp_succ]
  apply hl.put_t
  simp; omega

/-! ### Loops of Absorb -/

/-- A loop of `Absorb`s appends its bytes, below the counter's limit. -/
theorem Absorbed.absorbLoop {s : State} {m : List Byte} (hs : Absorbed s m) (g : Nat → Byte) (n : Nat)
    (hlim : m.length + n < 2 ^ 61) :
    Absorbed (forUp (fun i r => Sys2Proof.Machine.absorb (g i) r) 0 n s) (m ++ (List.range n).map g) := by
  induction n with
  | zero => rw [forUp]; simpa using hs
  | succ n ih =>
    rw [forUp_succ, List.range_succ, List.map_append, ← List.append_assoc, Nat.zero_add]
    exact (ih (by omega)).absorb _ (by simp; omega)

/-- A loop whose turns read a register that no turn writes is the loop over the register's first content. -/
theorem forUp_reads {α : Type} (reg : State → α) (body : α → Nat → State → State)
    (hkeep : ∀ a i r, reg (body a i r) = reg r) (start n : Nat) (s : State) :
    forUp (fun i r => body (reg r) i r) start n s = forUp (body (reg s)) start n s ∧
      reg (forUp (body (reg s)) start n s) = reg s := by
  induction n with
  | zero => rw [forUp, forUp]; exact ⟨rfl, rfl⟩
  | succ n ih =>
    rw [forUp_succ, forUp_succ, ih.1]
    simp only [ih.2, hkeep, and_self]

theorem absorbPad_eq (pad : Byte) (s : State) :
    absorbPad pad s = forUp (fun i r => absorb (getAt s.k0 i ^^^ pad) r) 0 64 s := by
  rw [← (forUp_reads State.k0 (fun k i r => absorb (getAt k i ^^^ pad) r) (by simp) 0 64 s).1]
  exact onEngine_eq (forUp_onlyEngine _ _ _ _ fun _ r => absorb_onlyEngine _ r)

theorem padBlock_eq (pad : Byte) (k : Vector Byte 64) :
    padBlock pad k = (List.range 64).map fun i => getAt k i ^^^ pad := by
  apply List.ext_getElem
  · simp [padBlock]
  · intro i h1 h2
    have hi : i < 64 := by simpa [padBlock] using h1
    simp [padBlock, getAt, Vector.getD, hi]

@[simp] theorem padBlock_length (pad : Byte) (k : Vector Byte 64) : (padBlock pad k).length = 64 := by
  simp [padBlock]

/-- All that absorbing a pad block does right after `ShaInit` (R142, R144). -/
theorem absorbed_absorbPad {s : State} (pad : Byte) (hs : Absorbed s []) :
    Absorbed (absorbPad pad s) (padBlock pad s.k0) ∧ (absorbPad pad s).t = 0 := by
  rw [absorbPad_eq, padBlock_eq]
  constructor
  · simpa using hs.absorbLoop (fun i => getAt s.k0 i ^^^ pad) 64 (by simp)
  · rw [forUp_succ]
    have h := hs.absorbLoop (fun i => getAt s.k0 i ^^^ pad) 63 (by simp)
    exact h.absorb_t _ (by simp)

/-- A loop over `IH` reads the bytes of `IH`. -/
theorem ih_bytes (v : Vector Byte 20) : (List.range 20).map (fun i => getAt v i) = v.toList := by
  apply List.ext_getElem
  · simp
  · intro i h1 h2
    have hi : i < 20 := by simpa using h2
    simp [getAt, Vector.getD, hi]

theorem absorbInnerHash_eq (s : State) :
    absorbInnerHash s = forUp (fun i r => absorb (getAt s.ih i) r) 0 20 s := by
  rw [← (forUp_reads State.ih (fun v i r => absorb (getAt v i) r) (by simp) 0 20 s).1]
  exact onEngine_eq (forUp_onlyEngine _ _ _ _ fun _ r => absorb_onlyEngine _ r)

/-- The state of `OuterHash` before its `Finalize`: the 84 bytes `OPAD ‖ IH` are absorbed (R144). -/
theorem absorbed_outer (s : State) :
    Absorbed (absorbInnerHash (absorbPad opadC (shaInit s))) (padBlock opadC s.k0 ++ s.ih.toList) := by
  have h := (absorbed_absorbPad opadC (absorbed_shaInit s)).1
  rw [absorbInnerHash_eq]
  have h2 := h.absorbLoop (fun i => getAt (absorbPad opadC (shaInit s)).ih i) 20 (by simp)
  rw [ih_bytes] at h2
  simpa using h2

/-! ### Key capture -/

/-- `KeyCapture` writes `K0` below index 64 and absorbs (R141). -/
theorem keyCapture_eq (b : Byte) (s : State) :
    keyCapture b s = absorb b { s with k0 := if s.len.toNat < 64 then setAt s.k0 s.len.toNat b else s.k0 } := by
  unfold keyCapture
  split <;> rfl

/-- The captured key grows with the absorbed key (R49 (d)). -/
theorem keyCaptured_snoc {s : State} {k : List Byte} (b : Byte) (hl : s.len.toNat = k.length) (h : KeyCaptured s k) :
    ∀ i, i < 64 →
      getAt (if s.len.toNat < 64 then setAt s.k0 s.len.toNat b else s.k0) i = (k ++ [b]).getD i 0x00 := by
  intro i hi
  have hk := h i hi
  rw [List.getD_eq_getElem?_getD] at hk ⊢
  by_cases hik : i = k.length
  · subst hik
    rw [hl, if_pos hi, getAt_setAt_self _ _ _ hi]
    simp
  · have hset : getAt (if s.len.toNat < 64 then setAt s.k0 s.len.toNat b else s.k0) i = getAt s.k0 i := by
      split
      · exact getAt_setAt_ne _ _ (by omega)
      · rfl
    rw [hset, hk]
    by_cases hlt : i < k.length
    · rw [List.getElem?_append_left hlt]
    · rw [List.getElem?_eq_none (by omega), List.getElem?_eq_none (by simp; omega)]

/-- A captured key of at most 64 bytes is the whole key, zero-padded (R140). -/
theorem k0_of_short {s : State} {k : List Byte} (h : KeyCaptured s k) : s.k0 = blockOf k := by
  apply eq_of_getAt
  intro i hi
  rw [h i hi, blockOf, getAt_ofFn _ hi]

/-- What a hashed key leaves in `K0` is its digest, zero-padded (R142). -/
theorem digestKey_eq (h : Vector Word 5) : digestKey h = blockOf (digestView h).toList := by
  apply eq_of_getAt
  intro i hi
  rw [digestKey, blockOf, getAt_ofFn _ hi, getAt_ofFn _ hi, List.getD_eq_getElem?_getD]
  by_cases h20 : i < 20
  · simp [h20, digestView]
  · simp [h20]

/-- What ends a key phase leaves in `K0`, whether or not the key is hashed down (R140, R142). -/
theorem hashLongKey_k0 {s : State} {k : List Byte} (ha : Absorbed s k) (hk : KeyCaptured s k) :
    (hashLongKey s).k0 = normalKey k := by
  unfold hashLongKey normalKey
  rw [ha.len]
  split
  · rw [show ({ finalize s with k0 := digestKey (finalize s).h } : State).k0 = digestKey (finalize s).h from rfl,
      digestKey_eq, (ha.finalize.whole (padded_length k)).1]
    rfl
  · exact k0_of_short hk

end Sys2Proof.Machine
end

