-- ==== Sys2Proof/Laws/Commands.lean ====
section
/-! SUPPORT. What `PUSH` and `END` do to the state, said once per branch (44_cmd_stream.md). The SHA1CE registers after the
branch are those of some state `r`; a proof that takes `r` from here keeps it opaque, so that no check unrolls its loops. -/

namespace Sys2Proof.Machine

/-- `Absorb` (R103): SHA1CE registers only, `LEN` one up. -/
theorem absorb_spec (b : Byte) (s : State) : ∃ r, absorb b s = onEngine s r ∧ r.len = s.len + 1 := by
  obtain ⟨r, hr⟩ := absorb_onlyEngine b s
  refine ⟨r, hr, ?_⟩
  have := absorb_len b s
  rw [hr] at this
  exact this

/-- `Finalize` (R104): SHA1CE registers only, `LEN` kept. -/
theorem finalize_spec (s : State) : ∃ r, finalize s = onEngine s r ∧ r.len = s.len := by
  obtain ⟨r, hr⟩ := finalize_onlyEngine s
  refine ⟨r, hr, ?_⟩
  have := finalize_len s
  rw [hr] at this
  exact this

/-- `FILL` after a `Put` (R102). -/
theorem put_fill (b : Byte) (s : State) (h : s.fill.toNat < 64) : (put b s).fill.toNat = (s.fill.toNat + 1) % 64 := by
  by_cases h63 : s.fill.toNat = 63
  · rw [put_compresses b s h63, h63]; simp
  · rw [put_stores b s h63]
    simp only [storeByte, BitVec.toNat_add]
    have : (1 : BitVec 7).toNat = 1 := rfl
    omega

/-- `FILL` and `LEN` after an `Absorb` below the counter's limit (R103). -/
theorem absorb_counts (b : Byte) (s : State) (h : s.fill.toNat < 64) (hl : s.len.toNat < 2 ^ 61 - 1) :
    (absorb b s).fill.toNat = (s.fill.toNat + 1) % 64 ∧ (absorb b s).len.toNat = s.len.toNat + 1 := by
  refine ⟨put_fill b { s with len := s.len + 1 } h, ?_⟩
  rw [absorb_len, BitVec.toNat_add]
  have : (1 : BitVec 61).toNat = 1 := rfl
  omega

/-- Whatever the hash in progress holds, `Finalize` keeps `FILL` in its range and `T` at 0 (R24, R26). -/
theorem finalize_ranges (s : State) (h : s.fill.toNat < 64) (ht : s.t = 0) :
    (finalize s).fill.toNat < 64 ∧ (finalize s).t = 0 := by
  have hp : ∀ (b : Byte) (r : State), r.fill.toNat < 64 ∧ r.t = 0 → (put b r).fill.toNat < 64 ∧ (put b r).t = 0 := by
    intro b r hr
    exact ⟨by rw [put_fill b r hr.1]; omega, put_t_zero b r hr.2⟩
  have hz : ∀ (n : Nat) (r : State), r.fill.toNat < 64 ∧ r.t = 0 →
      (padZeros n r).fill.toNat < 64 ∧ (padZeros n r).t = 0 := by
    intro n
    induction n with
    | zero => intro r hr; rw [padZeros]; exact hr
    | succ n ih =>
      intro r hr
      rw [padZeros]
      split
      · exact hr
      · exact ih _ (hp _ _ hr)
  rw [finalize_eq]
  exact forUp_invariant (P := fun _ (r : State) => r.fill.toNat < 64 ∧ r.t = 0) _ 0 8 _ (hz _ _ (hp _ _ ⟨h, ht⟩))
    fun _ r _ _ hr => hp _ _ hr

/-- `END` in (HASH, MSG) (R205). -/
theorem endHash_spec (s : State) :
    ∃ r, finalize s = onEngine s r ∧ r.len = s.len ∧
      endHash s = { onEngine s r with op := .idle, phase := .key, dv := true } := by
  obtain ⟨r, hr, hl⟩ := finalize_spec s
  refine ⟨r, hr, hl, ?_⟩
  unfold endHash setSeq
  rw [hr]

/-- `END` in a KEY phase (R204, R142): whatever came before, one block is compressed from `IVROM` and 64 bytes are
counted. -/
theorem endKey_spec (s : State) :
    ∃ r k, hashLongKey s = { onEngine s r with k0 := k } ∧ (s.len.toNat ≤ 64 → k = s.k0) ∧
      ∃ q, q.len = 64 ∧ q.fill = 0 ∧ q.t = 0 ∧ q.h = compressFn ivrom (blockOf (padBlock ipadC k)) ∧
        Absorbed q (padBlock ipadC k) ∧
        endKey s = { onEngine s q with k0 := k, kv := true, phase := .msg } := by
  obtain ⟨r, ⟨p, rfl⟩, hl⟩ := hashLongKey_only s
  have hshort : s.len.toNat ≤ 64 → (hashLongKey s).k0 = s.k0 := fun h => by rw [hashLongKey_short s h]
  generalize (hashLongKey s).k0 = k at hl hshort
  have hab := absorbed_absorbPad ipadC (absorbed_shaInit { hashLongKey s with kv := true })
  have hw := hab.1.fed.whole (n := 1) (by simp)
  obtain ⟨q, hq⟩ := absorbPad_onlyEngine ipadC (shaInit { hashLongKey s with kv := true })
  refine ⟨p, k, hl, hshort, q, ?_⟩
  unfold endKey keyNormalizeAndInnerStart
  rw [hl] at hq hab hw ⊢
  rw [hq] at hab hw ⊢
  obtain ⟨ha, ht⟩ := hab
  obtain ⟨hh, hf⟩ := hw
  refine ⟨?_, hf, ht, ?_, ha.congr rfl rfl rfl rfl, rfl⟩
  · apply BitVec.eq_of_toNat_eq
    have := ha.len
    simpa [onEngine] using this
  · change q.h = _ at hh
    rw [hh, hashBlocks, hashBlocks]
    rfl

/-- `InnerFinish` then `OuterHash` (R206, R143, R144). -/
theorem finishTag_spec (s : State) :
    ∃ r ih, ih = digestView (finalize s).h ∧ r.len = 84 ∧ r.fill = 0 ∧ r.t = 0 ∧ r.h = outerState s.k0 ih ∧
      finishTag s = { onEngine s r with ih := ih, ihv := true, dv := true } := by
  obtain ⟨p, hp⟩ := finalize_onlyEngine s
  have ha := absorbed_outer (innerFinish s)
  have hw := ha.finalize.whole (padded_length _)
  have ht := ha.finalize_t
  have hl : (outerHash (innerFinish s)).len = 84 := by
    unfold outerHash
    rw [finalize_len]
    apply BitVec.eq_of_toNat_eq
    rw [ha.len]; simp
  obtain ⟨q, hq⟩ := outerHash_onlyEngine (innerFinish s)
  have hi : innerFinish s = { onEngine s p with ih := digestView (finalize s).h, ihv := true } := by
    unfold innerFinish
    rw [hp]
  change (outerHash (innerFinish s)).h = _ ∧ (outerHash (innerFinish s)).fill = _ at hw
  change (outerHash (innerFinish s)).t = _ at ht
  unfold finishTag
  rw [hq] at hw ht hl ⊢
  rw [hi] at hw ⊢
  generalize digestView (finalize s).h = ih at *
  exact ⟨q, ih, rfl, hl, hw.2, ht, hw.1, rfl⟩

/-- Everything `END` can do (R203 to R206). -/
theorem end_cases (s : State) :
    (s.op = .idle ∧ exec .endStream s = .next (raiseErr .state s)) ∨
    (s.op ≠ .idle ∧ s.phase = .key ∧ exec .endStream s = .next (respond 0x00 (endKey s)) ∧
      ∃ q k, endKey s = { onEngine s q with k0 := k, kv := true, phase := .msg }) ∨
    (s.op = .hash ∧ s.phase = .msg ∧ exec .endStream s = .next (respond 0x00 (endHash s)) ∧
      ∃ q, endHash s = { onEngine s q with op := .idle, phase := .key, dv := true }) ∨
    (s.op = .hmac ∧ s.phase = .msg ∧ exec .endStream s = .next (respond 0x00 (setSeq .idle .key (finishTag s))) ∧
      ∃ q ih, finishTag s = { onEngine s q with ih := ih, ihv := true, dv := true }) ∨
    (s.op = .derive ∧ s.phase = .msg ∧
      exec .endStream s = .next (respond 0x00 (setSeq .idle .key (finishEncode (finishTag s)))) ∧
      ∃ q ih, finishTag s = { onEngine s q with ih := ih, ihv := true, dv := true }) := by
  by_cases h : s.op = .idle
  · exact .inl ⟨h, by simp only [exec, execEndStream, h, if_true]⟩
  refine .inr ?_
  cases hp : s.phase
  · obtain ⟨r, k, -, -, q, -, -, -, -, -, he⟩ := endKey_spec s
    exact .inl ⟨h, rfl, by simp only [exec, execEndStream, h, hp, if_true, if_false], q, k, he⟩
  refine .inr ?_
  obtain ⟨r, ih, -, -, -, -, -, he⟩ := finishTag_spec s
  cases ho : s.op
  · exact absurd ho h
  · obtain ⟨q, -, -, hh⟩ := endHash_spec s
    exact .inl ⟨rfl, rfl, by simp only [exec, execEndStream, ho, hp, if_true, if_false, reduceCtorEq], q, hh⟩
  · refine .inr (.inl ⟨rfl, rfl, ?_, r, ih, he⟩)
    simp only [exec, execEndStream, ho, hp, if_false, reduceCtorEq, endMac]
  · refine .inr (.inr ⟨rfl, rfl, ?_, r, ih, he⟩)
    simp only [exec, execEndStream, ho, hp, if_true, if_false, reduceCtorEq, endMac]

/-- Everything `PUSH` can do (R200 to R202). -/
theorem push_cases (b : Byte) (s : State) :
    (s.op = .idle ∧ exec (.push b) s = .next (raiseErr .state s)) ∨
    (s.op ≠ .idle ∧ s.len.toNat = 2 ^ 61 - 1 ∧ exec (.push b) s = .next (raiseErr .lenOvf s)) ∨
    (s.op ≠ .idle ∧ s.len.toNat < 2 ^ 61 - 1 ∧ s.phase = .key ∧ exec (.push b) s = .next (respond 0x00 (keyCapture b s))) ∨
    (s.op ≠ .idle ∧ s.len.toNat < 2 ^ 61 - 1 ∧ s.phase = .msg ∧
      exec (.push b) s = .next (respond 0x00 (absorb (streamByte Config.hw s.op b) s))) := by
  by_cases h : s.op = .idle
  · exact .inl ⟨h, by simp only [exec, execPush, pushWith, h, if_true]⟩
  by_cases hl : s.len.toNat = maxLen Config.hw
  · exact .inr (.inl ⟨h, hl, by simp only [exec, execPush, pushWith, h, hl, if_true, if_false]⟩)
  have hlt : s.len.toNat < 2 ^ 61 - 1 := by
    have := s.len.isLt
    change _ ≠ 2 ^ 61 - 1 at hl
    omega
  cases hp : s.phase
  · exact .inr (.inr (.inl ⟨h, hlt, rfl, by simp only [exec, execPush, pushWith, h, hl, hp, if_true, if_false]⟩))
  · exact .inr (.inr (.inr ⟨h, hlt, rfl, by
      simp only [exec, execPush, pushWith, h, hl, hp, if_false, reduceCtorEq]⟩))

/-- Every indexed read runs the common frame (R220). -/
theorem exec_read (i : Instr) (x : Space) (idx : Byte) (h : readOf i = some (x, idx)) (s : State) :
    exec i s = .next (readIndexed x idx s) := by
  cases i <;> simp only [readOf, Option.some.injEq, Prod.mk.injEq, reduceCtorEq] at h <;> obtain ⟨rfl, rfl⟩ := h <;> rfl

end Sys2Proof.Machine
end

