-- ==== Sys2Proof/Laws/Decode.lean ====
section
/-! SUPPORT. The fields of a command word (30_encoding.md R80). -/

namespace Sys2Proof

/-- Field `opc` of a word built from its two bytes. -/
@[simp] theorem opcOf_append (c d : Byte) : opcOf (c ++ d : BitVec 16) = c := by
  apply BitVec.eq_of_getLsbD_eq
  intro i hi
  rw [opcOf, BitVec.getLsbD_extractLsb']
  have h := BitVec.getLsbD_append (x := c) (y := d) (i := 8 + i)
  simpa [hi] using h

/-- Field `opd` of a word built from its two bytes. -/
@[simp] theorem opdOf_append (c d : Byte) : opdOf (c ++ d : BitVec 16) = d := by
  apply BitVec.eq_of_getLsbD_eq
  intro i hi
  rw [opdOf, BitVec.getLsbD_extractLsb']
  have h := BitVec.getLsbD_append (x := c) (y := d) (i := 0 + i)
  simpa [hi] using h

/-- A word is its two fields. -/
theorem append_fields (w : Cmd) : opcOf w ++ opdOf w = w := by
  apply BitVec.eq_of_getLsbD_eq
  intro i hi
  refine (BitVec.getLsbD_append (x := opcOf w) (y := opdOf w) (i := i)).trans ?_
  rw [opcOf, opdOf, BitVec.getLsbD_extractLsb', BitVec.getLsbD_extractLsb']
  split
  · simp [*]
  · rw [show 8 + (i - 8) = i by omega]
    simp [show i - 8 < 8 by omega]

end Sys2Proof
end

