-- ==== Sys2Proof/Laws/PerInstr.lean ====
section
/-! SUPPORT. The per-instruction family `EncodedWord`: every command, with every operand byte, encodes to a word of a
defined opcode that is no reserved encoding (30_encoding.md R82, R85). -/

namespace Sys2Proof.Laws.EncodedWord

/-- The encoded word carries the command's opcode and operand and is not reserved. -/
def Statement (i : Instr) : Prop :=
  opcOf (encode i) = opcodeByte i ∧ opdOf (encode i) = operandByte i ∧ reservedWord (encode i) = false

theorem nop : Statement .nop := by unfold Statement; decide
theorem sreset : Statement .sreset := by unfold Statement; decide
theorem startHash : Statement .startHash := by unfold Statement; decide
theorem startHmac : Statement .startHmac := by unfold Statement; decide
theorem startDerive : Statement .startDerive := by unfold Statement; decide
theorem endStream : Statement .endStream := by unfold Statement; decide
theorem rdStatus : Statement .rdStatus := by unfold Statement; decide
theorem rdErr : Statement .rdErr := by unfold Statement; decide

/-- An opcode of class `imm8` or `idx` is never reserved, whatever the operand byte is. -/
theorem of_byteOpcode (i : Instr) (h : byteOpcodes.contains (opcodeByte i) = true)
    (hn : noneOpcodes.contains (opcodeByte i) = false) : Statement i := by
  refine ⟨opcOf_append _ _, opdOf_append _ _, ?_⟩
  simp only [reservedWord, encode, opcOf_append, h, hn]
  rfl

theorem push (b : Byte) : Statement (.push b) := of_byteOpcode _ rfl rfl
theorem rdDigest (i : Byte) : Statement (.rdDigest i) := of_byteOpcode _ rfl rfl
theorem rdPw (i : Byte) : Statement (.rdPw i) := of_byteOpcode _ rfl rfl
theorem rdFrag (i : Byte) : Statement (.rdFrag i) := of_byteOpcode _ rfl rfl
theorem rdK0 (i : Byte) : Statement (.rdK0 i) := of_byteOpcode _ rfl rfl
theorem rdIpad (i : Byte) : Statement (.rdIpad i) := of_byteOpcode _ rfl rfl
theorem rdOpad (i : Byte) : Statement (.rdOpad i) := of_byteOpcode _ rfl rfl
theorem rdIh (i : Byte) : Statement (.rdIh i) := of_byteOpcode _ rfl rfl

end Sys2Proof.Laws.EncodedWord
end

