-- ==== Sys2Proof/Tests/Slice0.lean ====
section
/-! SUPPORT. The model's own tests: ill-formed commands, words written out from 30_encoding.md, one-step tests with expected
values from 95_test_vectors.md, and for every statement with hypotheses a witness that meets them (`test_meets_...`). -/

namespace Sys2Proof.Tests

open Sys2Proof.Machine

/-! ### Helpers -/

/-- Operation `o` open in phase `p`, right after `ShaInit`. -/
def opened (o : Op) (p : Phase) : State := shaInit { State.reset with op := o, phase := p }

/-- HMAC or DERIVE in its MSG phase, right after `END` of an empty key: `K0` is zero and the ipad block is absorbed. -/
def keyed (o : Op) : State := absorbPad ipadC (shaInit { State.reset with op := o, phase := .msg, kv := true })

/-- An idle state with every valid flag set and an error recorded. -/
def finished : State :=
  { State.reset with
    h := #v[0xa9993e36, 0x4706816a, 0xba3e2571, 0x7850c26c, 0x9cd0d89d]
    dv := true, pv := true, kv := true, ihv := true, fault := true, errcode := 0x04 }

/-- (HASH, MSG) after the bytes 61 62 63. -/
def hashedAbc : State :=
  { opened .hash .msg with
    blk := Vector.ofFn fun i => ([0x61, 0x62, 0x63] : List Byte).getD i.val 0, fill := 3, len := 3 }

/-- The state after a command, the same state where it does not answer one. -/
def after (i : Instr) (s : State) : State :=
  match exec i s with
  | .next t => t
  | .fault _ => s
  | .refused _ => s

/-- The response word of a command. -/
def reply (i : Instr) (s : State) : Option Rsp := (after i s).rsp

/-! ### Well-formedness: an index out of range is ill-formed (30_encoding.md R81) -/

theorem test_illformed_digest : (Instr.rdDigest 0x14).WellFormed = false ∧ (Instr.rdDigest 0x13).WellFormed = true := by decide
theorem test_illformed_pw : (Instr.rdPw 0x0C).WellFormed = false ∧ (Instr.rdPw 0x0B).WellFormed = true := by decide
theorem test_illformed_frag : (Instr.rdFrag 0x0A).WellFormed = false ∧ (Instr.rdFrag 0x09).WellFormed = true := by decide
theorem test_illformed_k0 : (Instr.rdK0 0x40).WellFormed = false ∧ (Instr.rdK0 0x3F).WellFormed = true := by decide
theorem test_illformed_ipad : (Instr.rdIpad 0x40).WellFormed = false ∧ (Instr.rdIpad 0x3F).WellFormed = true := by decide
theorem test_illformed_opad : (Instr.rdOpad 0x40).WellFormed = false ∧ (Instr.rdOpad 0x3F).WellFormed = true := by decide
theorem test_illformed_ih : (Instr.rdIh 0x14).WellFormed = false ∧ (Instr.rdIh 0x13).WellFormed = true := by decide

/-! ### Words written out from R82 (opc in bits 15:8, opd in bits 7:0) -/

theorem test_decode_control :
    decode 0b0000000000000000#16 = .ok .nop ∧ decode 0b0000000100000000#16 = .ok .sreset ∧
    decode 0b0001000000000000#16 = .ok .startHash ∧ decode 0b0001000100000000#16 = .ok .startHmac ∧
    decode 0b0001001000000000#16 = .ok .startDerive := by decide
theorem test_decode_stream :
    decode 0b0010000010100101#16 = .ok (.push 0b10100101#8) ∧ decode 0b0010000100000000#16 = .ok .endStream := by decide
theorem test_decode_read :
    decode 0b0011000000000000#16 = .ok .rdStatus ∧ decode 0b0011000100000000#16 = .ok .rdErr ∧
    decode 0b0100000000010011#16 = .ok (.rdDigest 19#8) ∧ decode 0b0100000100001011#16 = .ok (.rdPw 11#8) ∧
    decode 0b0100001000001001#16 = .ok (.rdFrag 9#8) ∧ decode 0b0100100000111111#16 = .ok (.rdK0 63#8) ∧
    decode 0b0100100100111110#16 = .ok (.rdIpad 62#8) ∧ decode 0b0100101011111111#16 = .ok (.rdOpad 255#8) ∧
    decode 0b0100101100000001#16 = .ok (.rdIh 1#8) := by decide
/-- V31: unknown opcodes, and a non-zero operand of a class `none` command. -/
theorem test_decode_reserved :
    decode 0xFFFF#16 = .error (.unknownOpcode 0xFF#8) ∧ decode 0x4C00#16 = .error (.unknownOpcode 0x4C#8) ∧
    decode 0x4300#16 = .error (.unknownOpcode 0x43#8) ∧ decode 0x0001#16 = .error (.operandNotZero 0x00#8 0x01#8) ∧
    decode 0x2101#16 = .error (.operandNotZero 0x21#8 0x01#8) := by decide
theorem test_decode_table_word :
    decodeTableWord 16 0x20A5 = some (.push 0xA5#8) ∧ decodeTableWord 16 0x2101 = none := by decide

/-! ### One step -/

theorem test_step_fetches : step (State.reset.withFetchWord 16 0x1000) = exec .startHash State.reset := rfl
theorem test_step_reserved : step (State.reset.withFetchWord 16 0xFFFF) = .next (raiseErr .illegal State.reset) := rfl
theorem test_nop : exec .nop finished = .next { finished with rsp := some 0x0000#16 } := rfl
/-- V36: `SRESET` clears status and error record. -/
theorem test_sreset : statusView (after .sreset finished) = 0x00#8 ∧ (after .sreset finished).errcode = 0x00#8 ∧
    reply .sreset finished = some 0x0000#16 := by decide
/-- R182, R183, R184: the `STATUS` after each `START`. -/
theorem test_start_status :
    reply .rdStatus (after .startHash State.reset) = some 0x0005#16 ∧
    reply .rdStatus (after .startHmac State.reset) = some 0x0002#16 ∧
    reply .rdStatus (after .startDerive State.reset) = some 0x0003#16 := by decide
/-- V37: a refused `START` leaves the open operation. -/
theorem test_start_refused : reply .startHmac (opened .hash .msg) = some 0x0200#16 ∧
    (after .startDerive (opened .hash .msg)).op = .hash := by decide
theorem test_start_zeroes_k0 :
    (after .startHmac { State.reset with k0 := Vector.replicate 64 0xAA }).k0 = Vector.replicate 64 0x00 := by decide
/-- R201: a key byte goes to `K0[LEN]` unfolded. -/
theorem test_push_key : getAt (after (.push 0x41) (opened .derive .key)).k0 0 = 0x41#8 ∧
    getAt (after (.push 0x41) (opened .derive .key)).blk 0 = 0x41#8 := by decide
/-- R202: in DERIVE a message byte is folded, in HASH it is not. -/
theorem test_push_msg : getAt (after (.push 0x41) (opened .derive .msg)).blk 0 = 0x61#8 ∧
    getAt (after (.push 0x41) (opened .hash .msg)).blk 0 = 0x41#8 := by decide
/-- V34 at LEN_BITS = 7, and V32. -/
theorem test_push_refused :
    (pushWith { lenBits := 7, foldLatin1 := false } 0x61 { opened .hash .msg with len := 127, fill := 63 }).rsp =
      some 0x0500#16 ∧ reply (.push 0x61) State.reset = some 0x0200#16 := by decide
/-- V6: `Sha1("abc")`. -/
theorem test_end_hash : (after .endStream hashedAbc).h =
    #v[0xa9993e36, 0x4706816a, 0xba3e2571, 0x7850c26c, 0x9cd0d89d] := by decide +kernel
/-- V24: DERIVE of two empty strings; the password is "**=*#cea4d=E". -/
theorem test_end_derive : (after .endStream (keyed .derive)).pw.toList.map BitVec.toNat =
    "**=*#cea4d=E".toList.map Char.toNat := by decide +kernel
/-- R46: `STATUS` F8 has every flag and nothing open; 26 is (HMAC, MSG) with the key readable (V36). -/
theorem test_rd_status : reply .rdStatus finished = some 0x00F8#16 ∧
    reply .rdStatus { State.reset with op := .hmac, phase := .msg, kv := true } = some 0x0026#16 := by decide
theorem test_rd_err : reply .rdErr finished = some 0x0004#16 := by decide
/-- P1: bytes 0, 4 and 19 of the digest of "abc". -/
theorem test_rd_digest : reply (.rdDigest 0) finished = some 0x00A9#16 ∧ reply (.rdDigest 4) finished = some 0x0047#16 ∧
    reply (.rdDigest 19) finished = some 0x009D#16 := by decide
/-- V33: the index check comes first. -/
theorem test_rd_priority : reply (.rdPw 0x14) State.reset = some 0x0300#16 ∧ reply (.rdPw 0x0B) State.reset = some 0x0400#16 ∧
    reply (.rdFrag 0x0A) State.reset = some 0x0300#16 ∧ reply (.rdK0 0x3F) State.reset = some 0x0400#16 ∧
    reply (.rdIh 0x13) State.reset = some 0x0400#16 := by decide
/-- P2: the pads of a zero key byte are 36 and 5C, of 4A they are 7C and 16. -/
theorem test_rd_pads : reply (.rdIpad 63) finished = some 0x0036#16 ∧ reply (.rdOpad 63) finished = some 0x005C#16 ∧
    reply (.rdIpad 0) { finished with k0 := setAt finished.k0 0 0x4A } = some 0x007C#16 ∧
    reply (.rdOpad 0) { finished with k0 := setAt finished.k0 0 0x4A } = some 0x0016#16 := by decide
theorem test_rd_bytes : reply (.rdK0 5) { finished with k0 := setAt finished.k0 5 0x4A } = some 0x004A#16 ∧
    reply (.rdPw 11) { finished with pw := setAt finished.pw 11 0x62 } = some 0x0062#16 ∧
    reply (.rdFrag 9) { finished with fr := setAt finished.fr 9 0x32 } = some 0x0032#16 ∧
    reply (.rdIh 19) { finished with ih := setAt finished.ih 19 0x23 } = some 0x0023#16 := by decide

/-! ### Micro-operations (V6, V8, V9, V26, V27) -/

theorem test_rotl : rotl32 0x67452301 5 = 0xe8a4602c#32 ∧ rotl32 0xefcdab89 30 = 0x7bf36ae2#32 := by decide
theorem test_round_functions : roundFn 0 0xefcdab89 0x98badcfe 0x10325476 = 0x98badcfe#32 ∧
    roundFn 79 0xf0f0f0f0 0xff00ff00 0xffff0000 = 0xf00f0ff0#32 ∧
    roundFn 59 0xf0f0f0f0 0xff00ff00 0xffff0000 = 0xfff0f000#32 := by decide
theorem test_round : (roundVars 0 0x61626380 (varsOf ivrom)).a = 0x0116fc33#32 := by decide
/-- V8: the word 61 62 63 80 of `LoadW`; the last word of the padded block of V6 is 24 bits. -/
theorem test_load_word :
    blockWord (Vector.ofFn fun i => ([0x61, 0x62, 0x63, 0x80] : List Byte).getD i.val 0) 0 = 0x61626380#32 := by decide
theorem test_length_field : lengthField 3 = [0, 0, 0, 0, 0, 0, 0, 0x18] ∧ padCount 55 = 0 ∧ padCount 56 = 63 := by decide
/-- V27: third row. -/
theorem test_password : passwordOf #v[0x1f203f40, 0x5f607f80, 0x9fa0bfc0, 0, 0] =
    #v[0x3F, 0x41, 0x3F, 0x41, 0x3F, 0x41, 0x3F, 0x41, 0x3F, 0x41, 0x3F, 0x41] := by decide
/-- V27: second row, "fffefdfcfb". -/
theorem test_fragment : fragmentOf #v[0xfffefdfc, 0xfbfaf9f8, 0, 0, 0] =
    #v[0x66, 0x66, 0x66, 0x65, 0x66, 0x64, 0x66, 0x63, 0x66, 0x62] := by decide
theorem test_fold : foldByte false 0x41 = 0x61#8 ∧ foldByte false 0x5A = 0x7A#8 ∧ foldByte false 0x5B = 0x5B#8 ∧
    foldByte false 0xC0 = 0xC0#8 ∧ foldByte true 0xC0 = 0xE0#8 ∧ foldByte true 0xD7 = 0xD7#8 := by decide

/-! ### The hypotheses of the statements can be met, all together, at the boundaries of their clauses -/

/-- DecodeAndEncodeAgree, DecodeFollowsOpcodeMap -/
theorem test_meets_decode : decode 0x20FF#16 = .ok (.push 0xFF#8) ∧ ("PUSH", 0x2000#16, 0xFF00#16) ∈ opcodeRows := by
  decide
/-- ReservedWordsAreIllegal -/
theorem test_meets_reserved : (State.reset.withFetchWord 16 0x4C00).port = .command 0x4C00#16 :: [] ∧
    reservedWord 0x4C00#16 = true ∧ reservedWord 0x2101#16 = true ∧ reservedWord 0x20FF#16 = false := by decide
/-- StepRunsDecodedCommand -/
theorem test_meets_step : (State.reset.withFetchWord 16 0x2061).port = .command 0x2061#16 :: [] ∧
    decode 0x2061#16 = .ok (.push 0x61#8) := by decide
/-- StepWithNoEventIsIdle -/
theorem test_meets_idle : finished.port = [] := rfl
/-- HardResetResetsControl -/
theorem test_meets_hard_reset : ({ finished with port := [.hardReset] } : State).port = .hardReset :: [] := rfl
/-- ResetIsObservedAsIdle, with the highest legal index of every space -/
theorem test_meets_after_reset : ControlReset { State.reset with k0 := Vector.replicate 64 0xAA } ∧
    readOf (.rdDigest 19) = some (.digest, 19) ∧ readOf (.rdPw 11) = some (.pw, 11) ∧
    readOf (.rdFrag 9) = some (.frag, 9) ∧ readOf (.rdK0 63) = some (.k0, 63) ∧ readOf (.rdIpad 63) = some (.ipad, 63) ∧
    readOf (.rdOpad 63) = some (.opad, 63) ∧ readOf (.rdIh 19) = some (.ih, 19) ∧ (19#8).toNat < spaceSize .digest ∧
    (11#8).toNat < spaceSize .pw ∧ (9#8).toNat < spaceSize .frag ∧ (63#8).toNat < spaceSize .k0 ∧
    (63#8).toNat < spaceSize .ipad ∧ (63#8).toNat < spaceSize .opad ∧ (19#8).toNat < spaceSize .ih :=
  ⟨by constructor <;> rfl, by decide⟩
/-- ErrorResponseRecordsFirstCode -/
theorem test_meets_error_codes : (Err.lenOvf, 0x05#8) ∈
    [(Err.illegal, 0x01#8), (Err.state, 0x02#8), (Err.index, 0x03#8), (Err.notValid, 0x04#8), (Err.lenOvf, 0x05#8)] := by
  decide
/-- RefusedExactlyAsRuled -/
theorem test_meets_refusal : refusalOf (.rdPw 12) finished = some .index ∧ refusalOf (.rdPw 11) finished = none ∧
    refusalOf (.rdPw 11) State.reset = some .notValid ∧ refusalOf .endStream State.reset = some .state ∧
    refusalOf (.push 0) (opened .hash .msg) = none ∧
    refusalOf (.push 0) { opened .hash .msg with len := BitVec.ofNat 61 (2 ^ 61 - 1) } = some .lenOvf := by decide
/-- OutOfSequenceIsRefused -/
theorem test_meets_sequence : (opened .hmac .key).op ≠ .idle ∧ State.reset.op = .idle := by decide
/-- PushAtFullCounterIsRefused -/
theorem test_meets_full_counter : ({ opened .hash .msg with len := BitVec.ofNat 61 (2 ^ 61 - 1) } : State).op ≠ .idle ∧
    ({ opened .hash .msg with len := BitVec.ofNat 61 (2 ^ 61 - 1) } : State).len.toNat = 2 ^ 61 - 1 := by decide
/-- PushAtFullCounterForAllParams -/
theorem test_meets_params : ({ lenBits := 7, foldLatin1 := true } : Params).Legal ∧ (opened .hash .msg).op ≠ .idle ∧
    ({ opened .hash .msg with len := 127 } : State).len.toNat = 2 ^ 7 - 1 ∧
    ({ opened .hash .msg with len := 126 } : State).len.toNat < 2 ^ 7 - 1 ∧ Params.Legal Config.hw := by decide
/-- ErrorRecordIsSticky -/
theorem test_meets_sticky : exec .rdErr finished = .next { finished with rsp := some 0x0004#16 } ∧
    Instr.rdErr ≠ .sreset ∧ finished.fault = true ∧ finished.errcode ≠ 0x00#8 := ⟨rfl, by decide, rfl, by decide⟩
/-- SeqFollowsTransitionTable -/
theorem test_meets_seq_table : (SeqLegal (opened .hash .msg) ∧ SeqLegal (opened .hmac .key) ∧ SeqLegal State.reset) ∧
    seqAfter .hmac .key .endStream = some (.hmac, .msg) ∧ seqAfter .idle .key .endStream = none ∧
    seqAfter .hash .msg .startHmac = none ∧ rspCode (after .startHash State.reset) = 0x00#8 ∧
    rspCode (after (.rdPw 0) State.reset) ≠ 0x00#8 :=
  ⟨⟨⟨nofun, fun _ => rfl⟩, ⟨nofun, nofun⟩, ⟨fun _ => rfl, nofun⟩⟩, by decide⟩
/-- ValidFlagsWrittenAsRuled -/
theorem test_meets_valid_flags : exec .startHash State.reset = .next (after .startHash State.reset) ∧
    refusalOf .startHash State.reset = none ∧ isRead (.rdK0 0) = true ∧ refusalOf (.rdK0 0) finished = none ∧
    refusalOf (.rdK0 0) State.reset ≠ none := ⟨rfl, by decide⟩
/-- ValidFlagsWrittenAsRuled, the branches of `END` -/
theorem test_meets_valid_flags_end : refusalOf .endStream (opened .hmac .key) = none ∧ (opened .hmac .key).phase = .key ∧
    refusalOf .endStream (opened .hash .msg) = none ∧ (opened .hash .msg).phase = .msg ∧
    refusalOf .endStream (opened .hmac .msg) = none ∧ (opened .hmac .msg).op = .hmac ∧
    refusalOf .endStream (opened .derive .msg) = none ∧ (opened .derive .msg).op = .derive := by decide
/-- PushIntoKeyPhase, at the last byte before the counter is full and at the last byte of a block -/
theorem test_meets_push_key :
    (({ opened .hmac .key with fill := 62, len := BitVec.ofNat 61 (2 ^ 61 - 2) } : State).op ≠ .idle ∧
      ({ opened .hmac .key with fill := 62, len := BitVec.ofNat 61 (2 ^ 61 - 2) } : State).phase = .key ∧
      ({ opened .hmac .key with fill := 62, len := BitVec.ofNat 61 (2 ^ 61 - 2) } : State).len.toNat < 2 ^ 61 - 1 ∧
      ({ opened .hmac .key with fill := 62, len := BitVec.ofNat 61 (2 ^ 61 - 2) } : State).fill.toNat < 63) ∧
    ({ opened .derive .key with fill := 63, len := 63 } : State).op ≠ .idle ∧
    ({ opened .derive .key with fill := 63, len := 63 } : State).phase = .key ∧
    ({ opened .derive .key with fill := 63, len := 63 } : State).len.toNat < 2 ^ 61 - 1 ∧
    ({ opened .derive .key with fill := 63, len := 63 } : State).fill.toNat = 63 := by decide
/-- PushIntoMessagePhase, at the last folded byte and the byte before the first -/
theorem test_meets_push_msg :
    (({ opened .derive .msg with fill := 62 } : State).op ≠ .idle ∧
      ({ opened .derive .msg with fill := 62 } : State).phase = .msg ∧
      ({ opened .derive .msg with fill := 62 } : State).len.toNat < 2 ^ 61 - 1 ∧
      (0x7A#8 = if ({ opened .derive .msg with fill := 62 } : State).op = .derive ∧ 0x41 ≤ (0x5A#8).toNat ∧
        (0x5A#8).toNat ≤ 0x5A then 0x5A#8 + 0x20#8 else 0x5A#8) ∧
      ({ opened .derive .msg with fill := 62 } : State).fill.toNat < 63) ∧
    ({ opened .derive .msg with fill := 63 } : State).op ≠ .idle ∧
    ({ opened .derive .msg with fill := 63 } : State).phase = .msg ∧
    ({ opened .derive .msg with fill := 63 } : State).len.toNat < 2 ^ 61 - 1 ∧
    (0x40#8 = if ({ opened .derive .msg with fill := 63 } : State).op = .derive ∧ 0x41 ≤ (0x40#8).toNat ∧
      (0x40#8).toNat ≤ 0x5A then 0x40#8 + 0x20#8 else 0x40#8) ∧
    ({ opened .derive .msg with fill := 63 } : State).fill.toNat = 63 := by decide

theorem test_absorbed_nothing (o : Op) (p : Phase) : Absorbed (opened o p) [] := absorbed_shaInit _
theorem test_captured_nothing (o : Op) (p : Phase) : KeyCaptured (opened o p) [] := by
  intro i hi
  change getAt (Vector.replicate 64 (0 : Byte)) i = _
  simp [getAt, Vector.getD, hi]

/-- PushAppendsToTheStream, in a KEY phase -/
theorem test_meets_push_appends_key : ∃ t, (opened .derive .key).op ≠ .idle ∧
    (opened .derive .key).len.toNat < 2 ^ 61 - 1 ∧ Absorbed (opened .derive .key) [] ∧
    exec (.push 0x41) (opened .derive .key) = .next t ∧ (opened .derive .key).phase = .key ∧
    KeyCaptured (opened .derive .key) [] :=
  ⟨_, by decide, by decide, test_absorbed_nothing _ _, rfl, rfl, test_captured_nothing _ _⟩
/-- PushAppendsToTheStream, in the MSG phase of HASH -/
theorem test_meets_push_appends_hash : ∃ t, (opened .hash .msg).op ≠ .idle ∧
    (opened .hash .msg).len.toNat < 2 ^ 61 - 1 ∧ Absorbed (opened .hash .msg) [] ∧
    exec (.push 0x41) (opened .hash .msg) = .next t ∧ (opened .hash .msg).phase = .msg ∧ (opened .hash .msg).op ≠ .derive :=
  ⟨_, by decide, by decide, test_absorbed_nothing _ _, rfl, rfl, by decide⟩
/-- PushAppendsToTheStream, in the MSG phase of DERIVE -/
theorem test_meets_push_appends_derive : ∃ t, (opened .derive .msg).op ≠ .idle ∧
    (opened .derive .msg).len.toNat < 2 ^ 61 - 1 ∧ Absorbed (opened .derive .msg) [] ∧
    exec (.push 0x41) (opened .derive .msg) = .next t ∧ (opened .derive .msg).phase = .msg ∧ (opened .derive .msg).op = .derive :=
  ⟨_, by decide, by decide, test_absorbed_nothing _ _, rfl, rfl, rfl⟩
/-- EndOfKeyStartsInnerHash -/
theorem test_meets_end_key : (opened .derive .key).op ≠ .idle ∧ (opened .derive .key).phase = .key ∧
    Absorbed (opened .derive .key) [] ∧ KeyCaptured (opened .derive .key) [] :=
  ⟨by decide, rfl, test_absorbed_nothing _ _, test_captured_nothing _ _⟩
/-- EndOfHashGivesSha1, FinalizePadsAndHashes -/
theorem test_meets_end_hash : (opened .hash .msg).op = .hash ∧ (opened .hash .msg).phase = .msg ∧
    Absorbed (opened .hash .msg) [] := ⟨rfl, rfl, test_absorbed_nothing _ _⟩
/-- EndOfHmacGivesTag (`o` = HMAC), EndOfDeriveGivesPassword (`o` = DERIVE) -/
theorem test_meets_end_mac (o : Op) : (keyed o).op = o ∧ (keyed o).phase = .msg ∧
    Absorbed (keyed o) (padBlock 0x36 (keyed o).k0 ++ []) := by
  refine ⟨rfl, rfl, ?_⟩
  rw [List.append_nil]
  exact (absorbed_absorbPad ipadC (absorbed_shaInit _)).1
/-- EndLeavesTheRest, in every branch of `END` -/
theorem test_meets_end_rest (o : Op) (p : Phase) (h : o ≠ .idle) : ∃ t, (opened o p).op ≠ .idle ∧
    exec .endStream (opened o p) = .next t ∧ (opened o p).phase = p ∧ (opened o p).op = o ∧
    (opened o p).len.toNat ≤ 64 := by
  refine ⟨_, h, rfl, rfl, rfl, ?_⟩
  have : (opened o p).len = 0 := rfl
  rw [this]; decide
/-- EndLeavesTheRest, at the longest key that is not hashed -/
theorem test_meets_end_rest_64 : ∃ t, exec .endStream { opened .hmac .key with len := 64 } = .next t ∧
    ({ opened .hmac .key with len := 64 } : State).len.toNat ≤ 64 := ⟨_, rfl, by decide⟩
/-- The indexed reads, at the last legal and the first illegal index -/
theorem test_meets_reads : 20 ≤ (20#8).toNat ∧ (19#8).toNat < 20 ∧ State.reset.dv = false ∧ finished.dv = true ∧
    12 ≤ (12#8).toNat ∧ (11#8).toNat < 12 ∧ State.reset.pv = false ∧ finished.pv = true ∧ 10 ≤ (10#8).toNat ∧
    (9#8).toNat < 10 ∧ 64 ≤ (64#8).toNat ∧ (63#8).toNat < 64 ∧ State.reset.kv = false ∧ finished.kv = true ∧
    State.reset.ihv = false ∧ finished.ihv = true := by decide
/-- ReadsHaveNoSideEffect -/
theorem test_meets_read_effects : isRead (.rdIh 0) = true ∧ rspCode (after (.rdIh 0) finished) = 0x00#8 ∧
    rspCode (after (.rdIh 0) State.reset) ≠ 0x00#8 := by decide
/-- CompressDependsOnHashAndBlock -/
theorem test_meets_compress_depends : State.reset.h = ({ State.reset with len := 5 } : State).h ∧
    State.reset.blk = ({ State.reset with len := 5 } : State).blk ∧ State.reset ≠ { State.reset with len := 5 } := by decide
/-- PutStoresAndCompresses -/
theorem test_meets_put : ({ State.reset with fill := 62 } : State).fill.toNat < 63 ∧
    ({ State.reset with fill := 63 } : State).fill.toNat = 63 := by decide
/-- StreamedSha1EqualsClosedForm -/
theorem test_meets_message : ([0x61, 0x62, 0x63] : List Byte).length ≤ 2 ^ 61 - 1 := by decide

/-- The control invariant holds in open operations. -/
theorem test_control_inv_open : ControlInv { opened .hash .msg with port := [.command 0x2061#16] } ∧
    ControlInv { opened .hmac .key with port := [.command 0x2100#16] } := by
  refine ⟨⟨rfl, by decide, by decide, ⟨by decide, by decide⟩, by decide, by decide, ?_, ?_, ?_, ?_, ?_, by decide, by decide⟩,
    ⟨rfl, by decide, by decide, ⟨by decide, by decide⟩, by decide, by decide, ?_, ?_, ?_, ?_, ?_, by decide, by decide⟩⟩ <;>
    decide
/-- ControlInvIsKeptByEveryStep -/
theorem test_meets_control_inv_step : ∃ t, ControlInv { opened .hmac .key with port := [.command 0x2100#16] } ∧
    step { opened .hmac .key with port := [.command 0x2100#16] } = .next t := ⟨_, test_control_inv_open.2, rfl⟩
/-- WholeInvIsKeptByEveryStep -/
theorem test_meets_whole_inv_step : ∃ t, Inv { opened .hash .msg with port := [.command 0x2061#16] } ∧
    step { opened .hash .msg with port := [.command 0x2061#16] } = .next t :=
  ⟨_, ⟨test_control_inv_open.1, ⟨[], (test_absorbed_nothing .hash .msg).congr rfl rfl rfl rfl⟩,
    ⟨nofun, nofun, nofun, nofun, nofun, nofun⟩⟩, rfl⟩
/-- EveryStepAnswers -/
theorem test_meets_every_step :
    ({ State.reset with port := [.command 0xFFFF#16] } : State).port = .command 0xFFFF#16 :: [] := rfl
/-- HiddenContentNeverShows: two states with different hidden contents look the same to the host. -/
theorem test_meets_same_for_host :
    SameForHost { opened .hash .msg with port := [.command 0x2061#16] }
      { opened .hash .msg with
        port := [.command 0x2061#16], k0 := Vector.replicate 64 0xAA, blk := Vector.replicate 64 0xBB } ∧
    ControlInv { opened .hash .msg with port := [.command 0x2061#16] } := by
  refine ⟨⟨rfl, rfl, rfl, rfl, rfl, rfl, rfl, rfl, rfl, rfl, ?_, ?_, ?_, ?_, ?_, ?_, ?_, ?_⟩, test_control_inv_open.1⟩ <;> decide

end Sys2Proof.Tests
end

section
/-! PROOFS. The control registers after reset and after `SRESET` (10_state.md R50). -/

namespace Sys2Proof.Machine

/-- The response word is no control register. -/
theorem ControlReset.setRsp {s : State} (h : ControlReset s) (r : Option Rsp) :
    ControlReset { s with rsp := r } :=
  ⟨h.op, h.phase, h.dv, h.pv, h.kv, h.ihv, h.fault, h.errcode, h.len, h.fill, h.t⟩

/-- `STATUS` shows control registers only (R46). -/
theorem ControlReset.statusView_eq_zero {s : State} (h : ControlReset s) : statusView s = 0x00#8 := by
  rw [statusView, h.fault, h.ihv, h.kv, h.pv, h.dv, h.phase, h.op]
  decide

theorem controlReset_reset : ControlReset State.reset :=
  ⟨rfl, rfl, rfl, rfl, rfl, rfl, rfl, rfl, rfl, rfl, rfl⟩

/-- Whatever free values the data registers draw, the control registers take the values of R50. -/
theorem controlReset_resetRegs (s : State) : ControlReset (resetRegs s) :=
  ⟨resetRegs_op s, resetRegs_phase s, resetRegs_dv s, resetRegs_pv s, resetRegs_kv s, resetRegs_ihv s,
    resetRegs_fault s, resetRegs_errcode s, resetRegs_len s, resetRegs_fill s, resetRegs_t s⟩

/-- A hard reset is `resetRegs` but for the response word (R280). -/
theorem controlReset_hardReset (s : State) : ControlReset (hardReset s) :=
  (controlReset_resetRegs s).setRsp none

/-- `SRESET` is accepted in every state (R185). -/
theorem exec_sreset (s : State) : exec .sreset s = .next (respond 0x00 (resetRegs s)) := rfl

theorem controlReset_sreset (s : State) : ControlReset (respond 0x00 (resetRegs s)) :=
  (controlReset_resetRegs s).setRsp _

/-- Settles O8: both resets go through `resetRegs`, which writes every control register of R50, and the response word
that each sets after it is no control register. -/
theorem resetLeavesControlValues : Obligations.ResetLeavesControlValues :=
  ⟨controlReset_reset, controlReset_reset.statusView_eq_zero, fun s =>
    ⟨controlReset_hardReset s, _, exec_sreset s, controlReset_sreset s⟩⟩

end Sys2Proof.Machine
end

section
/-! PROOFS. The decoder and the encoder are inverse to each other, and the decoder follows the opcode map: a word decodes
to a command of a row exactly when its masked bits match (30_encoding.md R80 to R83). -/

namespace Sys2Proof

/-! ### Fields -/

theorem eq_iff_fields (w v : Cmd) : w = v ↔ opcOf w = opcOf v ∧ opdOf w = opdOf v := by
  refine ⟨fun h => h ▸ ⟨rfl, rfl⟩, fun ⟨hc, hd⟩ => ?_⟩
  rw [← append_fields w, hc, hd, append_fields]

@[simp] theorem opcOf_and (w v : Cmd) : opcOf (w &&& v) = opcOf w &&& opcOf v := BitVec.extractLsb'_and

@[simp] theorem opdOf_and (w v : Cmd) : opdOf (w &&& v) = opdOf w &&& opdOf v := BitVec.extractLsb'_and

/-- A mask that keeps the whole opcode compares the opcode and the masked operand. -/
theorem masked_eq_iff (w : Cmd) (c m : Byte) :
    w &&& (0xFF#8 ++ m) = c ++ 0x00#8 ↔ opcOf w = c ∧ opdOf w &&& m = 0x00#8 := by
  have hff : opcOf w &&& 0xFF#8 = opcOf w := BitVec.and_allOnes
  rw [eq_iff_fields, opcOf_and, opdOf_and, opcOf_append, opcOf_append, opdOf_append, opdOf_append, hff]

@[simp] theorem opcOf_encode (i : Instr) : opcOf (encode i) = opcodeByte i := opcOf_append _ _

@[simp] theorem opdOf_encode (i : Instr) : opdOf (encode i) = operandByte i := opdOf_append _ _

theorem encode_eq_iff (i : Instr) (w : Cmd) : encode i = w ↔ opcOf w = opcodeByte i ∧ opdOf w = operandByte i := by
  rw [eq_comm, eq_iff_fields, opcOf_encode, opdOf_encode]

/-! ### Decode and encode -/

theorem decodeNone_eq_ok {i j : Instr} {w : Cmd} : decodeNone i w = .ok j ↔ opdOf w = 0x00#8 ∧ i = j := by
  rw [decodeNone]
  split <;> simp [*]

theorem decode_encode (i : Instr) : decode (encode i) = .ok i := by
  cases i <;> simp [decode, decodeNone, opcodeByte, operandByte]

/-- A class `none` arm of the decoder yields a command with the fields of the word. -/
theorem encode_of_noneArm {i j : Instr} {w : Cmd} {rest : Except Reserved Instr} (h0 : operandByte i = 0x00#8)
    (hrest : rest = .ok j → encode j = w) :
    (if opcOf w = opcodeByte i then decodeNone i w else rest) = .ok j → encode j = w := by
  intro h
  split at h
  next hc =>
    obtain ⟨hd, rfl⟩ := decodeNone_eq_ok.1 h
    exact (encode_eq_iff i w).2 ⟨hc, hd.trans h0.symm⟩
  next => exact hrest h

/-- A class `imm8` or `idx` arm of the decoder yields a command with the fields of the word. -/
theorem encode_of_byteArm {i j : Instr} {w : Cmd} {rest : Except Reserved Instr} (hd : operandByte i = opdOf w)
    (hrest : rest = .ok j → encode j = w) :
    (if opcOf w = opcodeByte i then .ok i else rest) = .ok j → encode j = w := by
  intro h
  split at h
  next hc =>
    cases h
    exact (encode_eq_iff i w).2 ⟨hc, hd.symm⟩
  next => exact hrest h

theorem encode_of_decode {w : Cmd} {i : Instr} : decode w = .ok i → encode i = w := by
  unfold decode
  refine encode_of_noneArm (i := .nop) rfl ?_
  refine encode_of_noneArm (i := .sreset) rfl ?_
  refine encode_of_noneArm (i := .startHash) rfl ?_
  refine encode_of_noneArm (i := .startHmac) rfl ?_
  refine encode_of_noneArm (i := .startDerive) rfl ?_
  refine encode_of_byteArm (i := .push _) rfl ?_
  refine encode_of_noneArm (i := .endStream) rfl ?_
  refine encode_of_noneArm (i := .rdStatus) rfl ?_
  refine encode_of_noneArm (i := .rdErr) rfl ?_
  refine encode_of_byteArm (i := .rdDigest _) rfl ?_
  refine encode_of_byteArm (i := .rdPw _) rfl ?_
  refine encode_of_byteArm (i := .rdFrag _) rfl ?_
  refine encode_of_byteArm (i := .rdK0 _) rfl ?_
  refine encode_of_byteArm (i := .rdIpad _) rfl ?_
  refine encode_of_byteArm (i := .rdOpad _) rfl ?_
  refine encode_of_byteArm (i := .rdIh _) rfl ?_
  nofun

/-- The words that decode to a command are its encoding, and no other. -/
theorem decode_eq_ok_iff (w : Cmd) (i : Instr) : decode w = .ok i ↔ encode i = w :=
  ⟨encode_of_decode, fun h => h ▸ decode_encode i⟩

/-! ### The row of a command -/

/-- The operand bits a row of the opcode map compares: all of them in class `none`, none in `imm8` and `idx` (R82). -/
def operandMask : Instr → Byte
  | .nop | .sreset | .startHash | .startHmac | .startDerive | .endStream | .rdStatus | .rdErr => 0xFF#8
  | .push _ | .rdDigest _ | .rdPw _ | .rdFrag _ | .rdK0 _ | .rdIpad _ | .rdOpad _ | .rdIh _ => 0x00#8

/-- The row of the opcode map a command belongs to. -/
def rowOf (i : Instr) : String × Cmd × Cmd := (mnemonicOf i, opcodeByte i ++ 0x00#8, 0xFF#8 ++ operandMask i)

/-- One command for each row, in the order of R82. -/
def rowCommands : List Instr :=
  [.nop, .sreset, .startHash, .startHmac, .startDerive, .push 0, .endStream, .rdStatus, .rdErr, .rdDigest 0, .rdPw 0,
    .rdFrag 0, .rdK0 0, .rdIpad 0, .rdOpad 0, .rdIh 0]

theorem opcodeRows_eq_map : opcodeRows = rowCommands.map rowOf := by decide

/-- The mnemonic of a command finds its row. -/
theorem lookup_mnemonicOf (i : Instr) : opcodeRows.lookup (mnemonicOf i) = some (rowOf i).2 := by
  cases i <;> simp [opcodeRows, List.lookup, mnemonicOf, rowOf, opcodeByte, operandMask]

theorem rowOf_eq_of_mnemonicOf_eq {i j : Instr} (h : mnemonicOf i = mnemonicOf j) : rowOf i = rowOf j :=
  Prod.ext h (Option.some.inj (by rw [← lookup_mnemonicOf, h, lookup_mnemonicOf]))

/-- A word agrees with the row of `i` when it has the opcode of `i` and an operand the row admits. -/
theorem rowOf_matches_iff (i : Instr) (w : Cmd) :
    w &&& (rowOf i).2.2 = (rowOf i).2.1 ↔ opcOf w = opcodeByte i ∧ opdOf w &&& operandMask i = 0x00#8 :=
  masked_eq_iff w _ _

theorem operandByte_and_operandMask (i : Instr) : operandByte i &&& operandMask i = 0x00#8 := by
  cases i with
  | nop | sreset | startHash | startHmac | startDerive | endStream | rdStatus | rdErr => rfl
  | push | rdDigest | rdPw | rdFrag | rdK0 | rdIpad | rdOpad | rdIh => exact BitVec.and_zero

theorem encode_matches_rowOf (i : Instr) : encode i &&& (rowOf i).2.2 = (rowOf i).2.1 := by
  rw [rowOf_matches_iff, opcOf_encode, opdOf_encode]
  exact ⟨rfl, operandByte_and_operandMask i⟩

/-- The command of the same row with operand byte `b`; a class `none` command has no operand to replace. -/
def Instr.withOperand (b : Byte) : Instr → Instr
  | .push _ => .push b
  | .rdDigest _ => .rdDigest b
  | .rdPw _ => .rdPw b
  | .rdFrag _ => .rdFrag b
  | .rdK0 _ => .rdK0 b
  | .rdIpad _ => .rdIpad b
  | .rdOpad _ => .rdOpad b
  | .rdIh _ => .rdIh b
  | i => i

@[simp] theorem mnemonicOf_withOperand (b : Byte) (i : Instr) : mnemonicOf (i.withOperand b) = mnemonicOf i := by
  cases i <;> rfl

@[simp] theorem opcodeByte_withOperand (b : Byte) (i : Instr) : opcodeByte (i.withOperand b) = opcodeByte i := by
  cases i <;> rfl

/-- An operand byte that the row of `i` admits is the operand of a command of that row. -/
theorem operandByte_withOperand {b : Byte} {i : Instr} (h : b &&& operandMask i = 0x00#8) :
    operandByte (i.withOperand b) = b := by
  cases i with
  | nop | sreset | startHash | startHmac | startDerive | endStream | rdStatus | rdErr =>
    exact h.symm.trans BitVec.and_allOnes
  | push | rdDigest | rdPw | rdFrag | rdK0 | rdIpad | rdOpad | rdIh => rfl

/-- Every word that agrees with the row of `i` encodes a command of that row. -/
theorem encode_withOperand {i : Instr} {w : Cmd} (h : w &&& (rowOf i).2.2 = (rowOf i).2.1) :
    encode (i.withOperand (opdOf w)) = w := by
  obtain ⟨hc, hd⟩ := (rowOf_matches_iff i w).1 h
  exact (encode_eq_iff _ w).2 ⟨hc.trans (opcodeByte_withOperand _ i).symm, (operandByte_withOperand hd).symm⟩

/-- R82 for the row of one command. -/
theorem matches_rowOf_iff_decode (w : Cmd) (i : Instr) :
    w &&& (rowOf i).2.2 = (rowOf i).2.1 ↔ ∃ j, decode w = .ok j ∧ mnemonicOf j = mnemonicOf i := by
  constructor
  · intro h
    exact ⟨i.withOperand (opdOf w), (decode_eq_ok_iff w _).2 (encode_withOperand h), mnemonicOf_withOperand _ i⟩
  · rintro ⟨j, hj, hm⟩
    rw [← encode_of_decode hj, ← rowOf_eq_of_mnemonicOf_eq hm]
    exact encode_matches_rowOf j

/-- Settles O3: every row of the opcode map is the row of a command, and a word agrees with that row exactly when it is
the encoding of a command with the same mnemonic. -/
theorem decodeFollowsOpcodeMap : Obligations.DecodeFollowsOpcodeMap := by
  refine ⟨fun w row hrow => ?_, rfl⟩
  rw [opcodeRows_eq_map, List.mem_map] at hrow
  obtain ⟨i, -, rfl⟩ := hrow
  exact matches_rowOf_iff_decode w i

end Sys2Proof
end

section
/-! PROOFS. What `Compress` computes, as the rules state it: the schedule (40_sha1_engine.md R105, R106), the 80 rounds and
the sums into `H` (R107 to R110); and when `Put` runs it (R102). -/

namespace Sys2Proof.Machine

/-! ### The schedule -/

/-- The word that R105 (below 16) or R106 (from 16 on) gives for `W[t]`, over the schedule `w`. -/
def scheduleWord (blk : Vector Byte 64) (w : Vector Word 80) (t : Nat) : Word :=
  if t < 16 then blockWord blk t else expandWord w t

theorem scheduleWord_load (blk : Vector Byte 64) (w : Vector Word 80) {t : Nat} (h : t < 16) :
    scheduleWord blk w t = blockWord blk t := if_pos h

theorem scheduleWord_expand (blk : Vector Byte 64) (w : Vector Word 80) {t : Nat} (h : 16 ≤ t) :
    scheduleWord blk w t = expandWord w t := if_neg (Nat.not_lt.mpr h)

/-- The four words that `ExpandW` reads stand below the one it writes (R106). -/
theorem expandWord_setAt (w : Vector Word 80) (v : Word) {t i : Nat} (h16 : 16 ≤ t) (hti : t ≤ i) :
    expandWord (setAt w i v) t = expandWord w t := by
  simp only [expandWord]
  rw [getAt_setAt_ne w v (show i ≠ t - 3 by omega), getAt_setAt_ne w v (show i ≠ t - 8 by omega),
    getAt_setAt_ne w v (show i ≠ t - 14 by omega), getAt_setAt_ne w v (show i ≠ t - 16 by omega)]

theorem scheduleWord_setAt (blk : Vector Byte 64) (w : Vector Word 80) (v : Word) {t i : Nat} (hti : t ≤ i) :
    scheduleWord blk (setAt w i v) t = scheduleWord blk w t := by
  by_cases h : t < 16
  · rw [scheduleWord_load _ _ h, scheduleWord_load _ _ h]
  · have h16 : 16 ≤ t := Nat.not_lt.mp h
    rw [scheduleWord_expand _ _ h16, scheduleWord_expand _ _ h16, expandWord_setAt w v h16 hti]

/-- The words of `w` below `n` are those of R105 and R106: what the loops of `LoadW` and `ExpandW` keep. -/
def ScheduledBelow (blk : Vector Byte 64) (n : Nat) (w : Vector Word 80) : Prop :=
  ∀ t, t < n → getAt w t = scheduleWord blk w t

/-- One turn of either loop: the word written is the next one, and no word before it changes. -/
theorem ScheduledBelow.set {blk : Vector Byte 64} {i : Nat} {w : Vector Word 80} (hw : ScheduledBelow blk i w)
    (hi : i < 80) : ScheduledBelow blk (i + 1) (setAt w i (scheduleWord blk w i)) := by
  intro t ht
  rw [scheduleWord_setAt blk w _ (Nat.le_of_lt_succ ht)]
  by_cases hit : i = t
  · subst hit
    exact getAt_setAt_self w i _ hi
  · rw [getAt_setAt_ne w _ hit]
    exact hw t (by omega)

theorem scheduleOf_scheduled (blk : Vector Byte 64) : ScheduledBelow blk 80 (scheduleOf blk) := by
  have hload := forUp_invariant (ScheduledBelow blk) (fun t w => setAt w t (blockWord blk t)) 0 16
    (Vector.replicate 80 0) (fun t ht => absurd ht (Nat.not_lt_zero t)) fun i w _ hi hw => by
      have hset := hw.set (by omega)
      rwa [scheduleWord_load _ _ (by omega)] at hset
  exact forUp_invariant (ScheduledBelow blk) (fun t w => setAt w t (expandWord w t)) 16 64 _ hload
    fun i w h16 hi hw => by
      have hset := hw.set (by omega)
      rwa [scheduleWord_expand _ _ h16] at hset

/-- Settles O43: along both loops the words written so far are those of R105 and R106, because each word is computed after
the four it reads and no later turn writes any of them. -/
theorem scheduleFollowsRecurrence : Obligations.ScheduleFollowsRecurrence := by
  intro s
  rw [compress_w]
  have hsched := scheduleOf_scheduled s.blk
  refine ⟨fun t h16 => ?_, fun t h16 h80 => ?_⟩
  · rw [hsched t (by omega), scheduleWord_load _ _ h16, blockWord, be32]
  · rw [hsched t h80, scheduleWord_expand _ _ h16, expandWord, rotl32_eq _ 1 (by omega)]

/-! ### The rounds -/

/-- The round functions by their ranges (R109). -/
theorem roundFn_eq (t : Nat) (b c d : Word) :
    (t < 20 → roundFn t b c d = (b &&& c) ||| (~~~b &&& d)) ∧ (20 ≤ t → t < 40 → roundFn t b c d = b ^^^ c ^^^ d) ∧
      (40 ≤ t → t < 60 → roundFn t b c d = (b &&& c) ||| (b &&& d) ||| (c &&& d)) ∧
      (60 ≤ t → roundFn t b c d = b ^^^ c ^^^ d) := by
  refine ⟨fun h => ?_, fun h h' => ?_, fun h h' => ?_, fun h => ?_⟩
  · rw [roundFn, if_pos h]
  · rw [roundFn, if_neg (by omega), if_pos h']
  · rw [roundFn, if_neg (by omega), if_neg (by omega), if_pos h']
  · rw [roundFn, if_neg (by omega), if_neg (by omega), if_neg (by omega)]

/-- A round with its rotations as `rotateLeft` (R108, R114). -/
theorem roundVars_eq (t : Nat) (wt : Word) (v : Vars) : roundVars t wt v =
    { a := v.a.rotateLeft 5 + roundFn t v.b v.c v.d + v.e + roundConst t + wt
      b := v.a, c := v.b.rotateLeft 30, d := v.c, e := v.d } := by
  rw [roundVars, rotl32_eq _ 5 (by omega), rotl32_eq _ 30 (by omega)]

/-- The rounds of a `Compress` run over the schedule it leaves in `W`. -/
theorem compress_vars_eq_forUp (s : State) : (compress s).vars =
    forUp (fun t v => roundVars t (getAt (compress s).w t) v) 0 80 (varsOf s.h) := by
  rw [compress_vars, compress_w, varsAfter]

/-- The sums of `AddIn` are over the working variables that a `Compress` leaves (R110). -/
theorem compress_h_eq_addVars (s : State) : (compress s).h = addVars s.h (compress s).vars := by
  rw [compress_h_eq, compress_vars]

/-- Settles O44: the trace is the loop of the rounds stopped before each turn; its last variables are those that `Compress`
leaves and `AddIn` adds into `H`. -/
theorem roundsAndAddInAsRuled : Obligations.RoundsAndAddInAsRuled := by
  intro s
  obtain ⟨v, hinit, hround, hlast⟩ := rounds_trace (compress s).w (varsOf s.h)
  rw [← compress_vars_eq_forUp] at hlast
  refine ⟨v, hinit, fun t ht => ?_, hlast.symm, ?_⟩
  · obtain ⟨hch, hparity, hmaj, hparity'⟩ := roundFn_eq t (v t).b (v t).c (v t).d
    obtain ⟨hk0, hk1, hk2, hk3⟩ := roundConst_eq t
    exact ⟨roundFn t (v t).b (v t).c (v t).d, roundConst t, fun h => ⟨hch h, hk0 h⟩,
      fun h h' => ⟨hparity h h', hk1 h h'⟩, fun h h' => ⟨hmaj h h', hk2 h h'⟩, fun h => ⟨hparity' h, hk3 h ht⟩,
      (hround t).trans (roundVars_eq t _ _)⟩
  · rw [compress_h_eq_addVars, ← hlast, addVars]

/-! ### Put -/

/-- The byte that fills the block: `FILL` counts to 64 (R102). -/
theorem storeByte_of_fill_eq_63 (b : Byte) {s : State} (h : s.fill.toNat = 63) :
    storeByte b s = { s with blk := setAt s.blk 63 b, fill := 64 } := by
  rw [storeByte, (fill_succ_eq_64 s.fill).mpr h, h]

/-- Settles O46: the block is full exactly when the byte stored is the one at 63. -/
theorem putStoresAndCompresses : Obligations.PutStoresAndCompresses := by
  intro s b _
  refine ⟨fun hlt => ?_, fun h63 => ?_, put_len b s⟩
  · rw [put_stores b s (Nat.ne_of_lt hlt), storeByte]
  · rw [put_compresses b s h63, storeByte_of_fill_eq_63 b h63]

end Sys2Proof.Machine
end

section
/-! PROOFS. The symbol-substitution encoder against the alphabet and the hexadecimal digits as strings
(42_passy_encoder.md R163, R164; 10_state.md R36, R37). -/

namespace Sys2Proof.Machine

/-! ### The two ROMs as strings -/

/-- `ALPHA` holds the codes of the Passy alphabet (R36). -/
theorem alphaRom_eq_alphabet : ∀ i, i < 32 → some (getAt alphaRom i).toNat =
    ("ABCDEFGHabcdefgh23456789#$%*+=@?".toList.map Char.toNat)[i]? := by
  decide

/-- `HEXROM` holds the codes of the lowercase hexadecimal digits (R37). -/
theorem hexRom_eq_hexDigits : ∀ i, i < 16 → some (getAt hexRom i).toNat =
    ("0123456789abcdef".toList.map Char.toNat)[i]? := by
  decide

/-! ### The bytes of the two results -/

theorem getAt_passwordOf (h : Vector Word 5) {j : Nat} (hj : j < 12) :
    getAt (passwordOf h) j = getAt alphaRom ((digestByte h j).toNat % 32) :=
  getAt_ofFn _ hj

theorem getAt_fragmentOf (h : Vector Word 5) {j : Nat} (hj : j < 10) :
    getAt (fragmentOf h) j = hexChar (digestByte h) j :=
  getAt_ofFn _ hj

/-- An even character of `Hex` is the digit of bits 7:4 (R162). -/
theorem hexChar_even (byteAt : Nat → Byte) (j : Nat) :
    hexChar byteAt (2 * j) = getAt hexRom ((byteAt j).toNat / 16) := by
  rw [hexChar, if_pos (Nat.mul_mod_right 2 j), Nat.mul_div_cancel_left j Nat.two_pos]

/-- An odd character of `Hex` is the digit of bits 3:0 (R162). -/
theorem hexChar_odd (byteAt : Nat → Byte) (j : Nat) :
    hexChar byteAt (2 * j + 1) = getAt hexRom ((byteAt j).toNat % 16) := by
  rw [hexChar, if_neg (by omega), show (2 * j + 1) / 2 = j by omega]

/-- Settles O51: `Encode` writes the two vectors of R163 and R164, and every index they take into a ROM is within it:
a residue modulo 32 or 16, or the upper nibble of a byte. -/
theorem encodeWritesPasswordAndFragment : Obligations.EncodeWritesPasswordAndFragment := by
  intro s
  refine ⟨passwordOf s.h, fragmentOf s.h, encodeResult_eq s, fun j hj => ?_, fun j hj => ⟨?_, ?_⟩⟩
  · rw [getAt_passwordOf s.h hj]
    exact alphaRom_eq_alphabet _ (Nat.mod_lt _ (by decide))
  · rw [getAt_fragmentOf s.h (by omega), hexChar_even]
    exact hexRom_eq_hexDigits _ (Nat.div_lt_of_lt_mul (digestByte s.h j).isLt)
  · rw [getAt_fragmentOf s.h (by omega), hexChar_odd]
    exact hexRom_eq_hexDigits _ (Nat.mod_lt _ (by decide))

end Sys2Proof.Machine
end

section
/-! PROOFS. The control commands `NOP`, `START.HASH` and `START.HMAC`, and the table of `SEQ` transitions
(43_cmd_control.md R181 to R183, R186). -/

namespace Sys2Proof.Machine

/-! ### Response codes -/

/-- `respond OK` answers with code 0x00 (R84). -/
@[simp] theorem rspCode_respond (d : Byte) (s : State) : rspCode (respond d s) = 0x00#8 := opcOf_append _ _

/-- The error response answers with the code of the error (R250). -/
@[simp] theorem rspCode_raiseErr (e : Err) (s : State) : rspCode (raiseErr e s) = errCode e := opcOf_append _ _

theorem errCode_ne_zero (e : Err) : errCode e ≠ 0x00#8 := by cases e <;> decide

/-! ### NOP -/

theorem exec_nop (s : State) : exec .nop s = .next (respond 0x00 s) := rfl

/-- A class `none` command with an operand is a reserved encoding (R83 step 3, R85). -/
theorem decodeNone_of_operand (i : Instr) {w : Cmd} (h : opdOf w ≠ 0x00#8) :
    decodeNone i w = .error (.operandNotZero (opcOf w) (opdOf w)) := if_neg h

/-- Opcode 0x00 is that of `NOP` (R82). -/
theorem decode_of_opcode_zero {w : Cmd} (h : opcOf w = 0x00#8) : decode w = decodeNone .nop w := if_pos h

/-- Settles O18: the opcode 0x00 leads to the operand check of class `none`, which lets 0x00 alone pass. -/
theorem nopOnlyAnswersOk : Obligations.NopOnlyAnswersOk := by
  refine ⟨(decode_eq_ok_iff _ .nop).2 rfl, fun d hd => ?_, exec_nop⟩
  have hopd : opdOf (0x00#8 ++ d) ≠ 0x00#8 := by rwa [opdOf_append]
  rw [decode_of_opcode_zero (opcOf_append _ _), decodeNone_of_operand _ hopd, opcOf_append, opdOf_append]

/-! ### START.* -/

/-- An accepted `START.HASH` (R182). -/
theorem exec_startHash_of_idle {s : State} (h : s.op = .idle) :
    exec .startHash s = .next (respond 0x00 (shaInit (clearValid (setSeq .hash .msg s)))) :=
  congrArg Host.Outcome.next (if_pos h)

theorem exec_startHmac (s : State) : exec .startHmac s = .next (startKeyed .hmac s) := rfl

theorem exec_startDerive (s : State) : exec .startDerive s = .next (startKeyed .derive s) := rfl

/-- The START commands that open a KEY phase, when accepted (R183, R184). -/
theorem startKeyed_of_idle (o : Op) {s : State} (h : s.op = .idle) :
    startKeyed o s = respond 0x00 (shaInit { clearValid (setSeq o .key s) with k0 := Vector.replicate 64 0x00 }) :=
  if_pos h

theorem startKeyed_of_open (o : Op) {s : State} (h : s.op ≠ .idle) : startKeyed o s = raiseErr .state s := if_neg h

/-- A `START.*` while an operation is open is refused (R253). -/
theorem exec_start_of_open {i : Instr} {s : State} (hi : i = .startHash ∨ i = .startHmac ∨ i = .startDerive)
    (h : s.op ≠ .idle) : exec i s = .next (raiseErr .state s) := by
  obtain rfl | rfl | rfl := hi
  · exact congrArg Host.Outcome.next (if_neg h)
  · rw [exec_startHmac, startKeyed_of_open .hmac h]
  · rw [exec_startDerive, startKeyed_of_open .derive h]

/-- Settles O20: the two sides of the guard on `OP`. -/
theorem startHashOpensHash : Obligations.StartHashOpensHash :=
  ⟨(decode_eq_ok_iff _ .startHash).2 rfl, fun _ => ⟨exec_start_of_open (.inl rfl), exec_startHash_of_idle⟩⟩

/-- Settles O21: the two sides of the guard on `OP`, in what the two keyed START commands share. -/
theorem startHmacOpensKeyPhase : Obligations.StartHmacOpensKeyPhase := by
  refine ⟨(decode_eq_ok_iff _ .startHmac).2 rfl, fun s => ⟨exec_start_of_open (.inr (.inl rfl)), fun h => ?_⟩⟩
  rw [exec_startHmac, startKeyed_of_idle .hmac h]
  rfl

/-! ### The transition table -/

/-- What R186 asks of the state `t` that a command leaves from `s`, where the table's entry for it is `e`. -/
def FollowsEntry (s t : State) (e : Option (Op × Phase)) : Prop :=
  (∀ o p, e = some (o, p) →
    (rspCode t = 0x00#8 → t.op = o ∧ t.phase = p) ∧ (rspCode t ≠ 0x00#8 → t.op = s.op ∧ t.phase = s.phase)) ∧
  (e = none → t = raiseErr .state s)

/-- An accepted command takes the entry. -/
theorem followsEntry_respond (d : Byte) (s t : State) : FollowsEntry s (respond d t) (some (t.op, t.phase)) := by
  refine ⟨fun o p he => ?_, nofun⟩
  cases he
  exact ⟨fun _ => ⟨rfl, rfl⟩, fun hne => absurd (rspCode_respond d t) hne⟩

/-- Any error is a legal answer where the table has a next `SEQ`, since it leaves `SEQ` unchanged. -/
theorem followsEntry_raiseErr (e : Err) (s : State) (q : Op × Phase) : FollowsEntry s (raiseErr e s) (some q) := by
  refine ⟨fun o p _ => ⟨fun hok => ?_, fun _ => ⟨rfl, rfl⟩⟩, nofun⟩
  exact absurd ((rspCode_raiseErr e s).symm.trans hok) (errCode_ne_zero e)

/-- Where the table says `ERR_STATE`, the command is refused so. -/
theorem followsEntry_none (s : State) : FollowsEntry s (raiseErr .state s) none := ⟨nofun, fun _ => rfl⟩

/-- Everything an indexed read can do (R220, R257). -/
theorem readIndexed_cases (x : Space) (idx : Byte) (s : State) :
    (spaceSize x ≤ idx.toNat ∧ readIndexed x idx s = raiseErr .index s) ∨
    (idx.toNat < spaceSize x ∧ spaceValid x s = false ∧ readIndexed x idx s = raiseErr .notValid s) ∨
    (idx.toNat < spaceSize x ∧ spaceValid x s = true ∧
      readIndexed x idx s = respond (spaceByte x idx.toNat s) s) := by
  by_cases hx : spaceSize x ≤ idx.toNat
  · exact .inl ⟨hx, if_pos hx⟩
  have hlt := Nat.lt_of_not_le hx
  cases hv : spaceValid x s
  · exact .inr (.inl ⟨hlt, rfl, (if_neg hx).trans (if_pos hv)⟩)
  · exact .inr (.inr ⟨hlt, rfl, (if_neg hx).trans (if_neg (by simp [hv]))⟩)

/-- An indexed read leaves `SEQ` as it is, accepted or refused. -/
theorem readIndexed_followsEntry (x : Space) (idx : Byte) (s : State) :
    FollowsEntry s (readIndexed x idx s) (some (s.op, s.phase)) := by
  obtain ⟨-, h⟩ | ⟨-, -, h⟩ | ⟨-, -, h⟩ := readIndexed_cases x idx s
  · rw [h]; exact followsEntry_raiseErr _ s _
  · rw [h]; exact followsEntry_raiseErr _ s _
  · rw [h]; exact followsEntry_respond _ s s

/-- The three START entries: `ERR_STATE` unless `SEQ` is idle. -/
theorem exec_start_followsTable {i : Instr} (hi : i = .startHash ∨ i = .startHmac ∨ i = .startDerive) (s : State) :
    ∃ t, exec i s = .next t ∧ FollowsEntry s t (seqAfter s.op s.phase i) := by
  by_cases h : s.op = .idle
  · rw [h]
    obtain rfl | rfl | rfl := hi
    · exact ⟨_, exec_startHash_of_idle h, followsEntry_respond _ s _⟩
    · rw [exec_startHmac, startKeyed_of_idle .hmac h]
      exact ⟨_, rfl, followsEntry_respond _ s _⟩
    · rw [exec_startDerive, startKeyed_of_idle .derive h]
      exact ⟨_, rfl, followsEntry_respond _ s _⟩
  · have hnone : seqAfter s.op s.phase i = none := by
      obtain rfl | rfl | rfl := hi <;> exact if_neg h
    rw [hnone]
    exact ⟨_, exec_start_of_open hi h, followsEntry_none s⟩

/-- The `PUSH` entries: an open `SEQ` is kept. -/
theorem exec_push_followsTable (b : Byte) (s : State) :
    ∃ t, exec (.push b) s = .next t ∧ FollowsEntry s t (seqAfter s.op s.phase (.push b)) := by
  have hopen : s.op ≠ .idle → seqAfter s.op s.phase (.push b) = some (s.op, s.phase) := fun h => if_neg h
  obtain ⟨h, he⟩ | ⟨h, -, he⟩ | ⟨h, -, -, he⟩ | ⟨h, -, -, he⟩ := push_cases b s
  · rw [h]
    exact ⟨_, he, followsEntry_none s⟩
  · rw [hopen h]
    exact ⟨_, he, followsEntry_raiseErr _ s _⟩
  · rw [hopen h]
    refine ⟨_, he, ?_⟩
    rw [keyCapture_eq]
    exact followsEntry_respond _ s (absorb b _)
  · rw [hopen h]
    exact ⟨_, he, followsEntry_respond _ s (absorb _ s)⟩

/-- `HASH` has no KEY phase (R40). -/
theorem SeqLegal.op_ne_hash {s : State} (hs : SeqLegal s) (hkey : s.phase = .key) : s.op ≠ .hash := by
  obtain ⟨-, hmsg⟩ := hs
  intro hhash
  exact Phase.noConfusion (hkey.symm.trans (hmsg hhash))

/-- `END` of a KEY phase opens the MSG phase of the same operation. -/
theorem seqAfter_endStream_key {o : Op} (hidle : o ≠ .idle) (hhash : o ≠ .hash) :
    seqAfter o .key .endStream = some (o, .msg) := by
  cases o with
  | idle => exact absurd rfl hidle
  | hash => exact absurd rfl hhash
  | hmac | derive => rfl

/-- The `END` entries. In (HASH, KEY), which is no legal `SEQ`, the model and the table part. -/
theorem exec_endStream_followsTable {s : State} (hs : SeqLegal s) :
    ∃ t, exec .endStream s = .next t ∧ FollowsEntry s t (seqAfter s.op s.phase .endStream) := by
  obtain ⟨h, he⟩ | ⟨h, hp, he, q, k, hq⟩ | ⟨h, hp, he, -⟩ | ⟨h, hp, he, -⟩ | ⟨h, hp, he, -⟩ := end_cases s
  · rw [h]
    exact ⟨_, he, followsEntry_none s⟩
  · rw [hp, seqAfter_endStream_key h (hs.op_ne_hash hp)]
    refine ⟨_, he, ?_⟩
    rw [hq]
    exact followsEntry_respond _ s { onEngine s q with k0 := k, kv := true, phase := .msg }
  all_goals
    rw [h, hp]
    exact ⟨_, he, followsEntry_respond _ s (setSeq .idle .key _)⟩

/-- Settles O23: one group of commands per column of the table of R186. -/
theorem seqFollowsTransitionTable : Obligations.SeqFollowsTransitionTable := by
  intro i s hs
  change ∃ t, exec i s = .next t ∧ FollowsEntry s t (seqAfter s.op s.phase i)
  cases i with
  | startHash => exact exec_start_followsTable (.inl rfl) s
  | startHmac => exact exec_start_followsTable (.inr (.inl rfl)) s
  | startDerive => exact exec_start_followsTable (.inr (.inr rfl)) s
  | push b => exact exec_push_followsTable b s
  | endStream => exact exec_endStream_followsTable hs
  | sreset => exact ⟨_, exec_sreset s, followsEntry_respond _ s (resetRegs s)⟩
  | nop | rdStatus | rdErr => exact ⟨_, rfl, followsEntry_respond _ s s⟩
  | rdDigest | rdPw | rdFrag | rdK0 | rdIpad | rdOpad | rdIh => exact ⟨_, rfl, readIndexed_followsEntry _ _ s⟩

end Sys2Proof.Machine
end

section
/-! PROOFS. What `PUSH` does in a KEY phase (44_cmd_stream.md R201), from what `Absorb` does below and at the last byte of
a block (40_sha1_engine.md R102, R103). -/

namespace Sys2Proof.Machine

/-! ### Absorb -/

/-- A byte that does not fill the block is only stored and counted. -/
theorem absorb_of_fill_lt_63 (b : Byte) {s : State} (h : s.fill.toNat < 63) :
    absorb b s = { s with blk := setAt s.blk s.fill.toNat b, fill := s.fill + 1, len := s.len + 1 } := by
  rw [absorb, put_stores, storeByte]
  exact Nat.ne_of_lt h

/-- The byte that fills the block is stored and the block compressed. -/
theorem absorb_of_fill_eq_63 (b : Byte) {s : State} (h : s.fill.toNat = 63) :
    absorb b s =
      { s with blk := setAt s.blk 63 b, fill := 0, len := s.len + 1, h := compressFn s.h (setAt s.blk 63 b)
               w := scheduleOf (setAt s.blk 63 b), vars := varsAfter s.h (setAt s.blk 63 b), t := 0 } := by
  rw [absorb, put_compresses, storeByte_of_fill_eq_63, compress_eq] <;> exact h

/-! ### PUSH in a KEY phase -/

/-- An accepted `PUSH` of a key byte (R201), as an `Absorb` once `K0` is written. -/
theorem exec_push_key (b : Byte) {s : State} (hop : s.op ≠ .idle) (hphase : s.phase = .key)
    (hlen : s.len.toNat < 2 ^ 61 - 1) : exec (.push b) s = .next (respond 0x00
      (absorb b { s with k0 := if s.len.toNat < 64 then setAt s.k0 s.len.toNat b else s.k0 })) := by
  rw [← keyCapture_eq]
  obtain ⟨hidle, -⟩ | ⟨-, hfull, -⟩ | ⟨-, -, -, he⟩ | ⟨-, -, hmsg, -⟩ := push_cases b s
  · exact absurd hidle hop
  · exact absurd hfull (Nat.ne_of_lt hlen)
  · exact he
  · exact absurd (hphase.symm.trans hmsg) nofun

/-- Settles O25: the captured byte is absorbed as it is, and the two cases are those of `Absorb` at `FILL`. -/
theorem pushIntoKeyPhase : Obligations.PushIntoKeyPhase := by
  intro s b hop hphase hlen
  rw [exec_push_key b hop hphase hlen]
  refine ⟨fun hlt => ?_, fun h63 => ⟨scheduleOf (setAt s.blk 63 b), varsAfter s.h (setAt s.blk 63 b), ?_⟩⟩
  · rw [absorb_of_fill_lt_63]
    · rfl
    · exact hlt
  · rw [absorb_of_fill_eq_63]
    · rfl
    · exact h63

end Sys2Proof.Machine
end

section
/-! PROOFS. The read commands (45_cmd_read.md): the `STATUS` view as a number (10_state.md R46), the three answers of an
indexed read (R220), and that no read has a side effect (R230). -/

namespace Sys2Proof.Machine

/-! ### RD.STATUS and RD.ERR -/

theorem exec_rdStatus (s : State) : exec .rdStatus s = .next (respond (statusView s) s) := rfl

theorem exec_rdErr (s : State) : exec .rdErr s = .next (respond s.errcode s) := rfl

/-- The number a concatenation stands for: the upper field is shifted above the lower one. -/
theorem toNat_append_eq_add {m n : Nat} (x : BitVec m) (y : BitVec n) :
    (x ++ y).toNat = x.toNat * 2 ^ n + y.toNat := by
  rw [BitVec.toNat_append, ← Nat.shiftLeft_add_eq_or_of_lt y.isLt, Nat.shiftLeft_eq]

/-- The weights of the fields of `STATUS` (R46). -/
theorem toNat_statusView (s : State) : (statusView s).toNat =
    (opCode s.op).toNat + 4 * (phaseCode s.phase).toNat + 8 * s.dv.toNat + 16 * s.pv.toNat + 32 * s.kv.toNat +
      64 * s.ihv.toNat + 128 * s.fault.toNat := by
  simp only [statusView, toNat_append_eq_add, BitVec.toNat_ofBool]
  omega

/-- Settles O33: the answer is the `STATUS` view, and the codes of `OP` and `PHASE` are the numbers of R41 and R42. -/
theorem readStatusAnswersStatus : Obligations.ReadStatusAnswersStatus := by
  refine ⟨decode_encode .rdStatus, fun s => ⟨statusView s, exec_rdStatus s, ?_⟩⟩
  rw [toNat_statusView]
  cases s.op <;> cases s.phase <;> rfl

/-- Settles O34: `ERRCODE` is what `RD.ERR` responds with. -/
theorem readErrAnswersErrcode : Obligations.ReadErrAnswersErrcode := ⟨decode_encode .rdErr, exec_rdErr⟩

/-! ### The answers of an indexed read -/

/-- The frame of R220 for a read of any space: the index is checked before the valid flag. -/
theorem exec_read_answers (i : Instr) {x : Space} {idx : Byte} (h : readOf i = some (x, idx)) (s : State) :
    (spaceSize x ≤ idx.toNat → exec i s = .next (raiseErr .index s)) ∧
    (idx.toNat < spaceSize x → spaceValid x s = false → exec i s = .next (raiseErr .notValid s)) ∧
    (idx.toNat < spaceSize x → spaceValid x s = true →
      exec i s = .next (respond (spaceByte x idx.toNat s) s)) := by
  rw [exec_read i x idx h s]
  refine ⟨fun hx => ?_, fun hx hv => ?_, fun hx hv => ?_⟩
  · rw [readIndexed, if_pos hx]
  · rw [readIndexed, if_neg (Nat.not_le.2 hx), if_pos hv]
  · rw [readIndexed, if_neg (Nat.not_le.2 hx), if_neg (ne_false_of_eq_true hv)]

/-- Byte `i` of the digest as a shifted word of `H` (R30). -/
theorem digestByte_eq_shift (h : Vector Word 5) (i : Nat) :
    digestByte h i = ((getAt h (i / 4)) >>> (24 - 8 * (i % 4))).setWidth 8 :=
  BitVec.setWidth_ushiftRight_eq_extractLsb.symm

/-- Settles O35: the common frame at the digest, its byte written as a shift. -/
theorem readDigestByte : Obligations.ReadDigestByte := by
  intro s i
  rw [← digestByte_eq_shift]
  exact ⟨decode_encode (.rdDigest i), exec_read_answers (.rdDigest i) rfl s⟩

/-- Settles O36: the common frame at `PW`. -/
theorem readPasswordByte : Obligations.ReadPasswordByte :=
  fun s i => ⟨decode_encode (.rdPw i), exec_read_answers (.rdPw i) rfl s⟩

/-- Settles O37: the common frame at `FR`. -/
theorem readFragmentByte : Obligations.ReadFragmentByte :=
  fun s i => ⟨decode_encode (.rdFrag i), exec_read_answers (.rdFrag i) rfl s⟩

/-- Settles O38: the common frame at `K0`. -/
theorem readKeyByte : Obligations.ReadKeyByte :=
  fun s i => ⟨decode_encode (.rdK0 i), exec_read_answers (.rdK0 i) rfl s⟩

/-- Settles O39: the common frame at the two views of `K0`, under the same size and flag. -/
theorem readPadBytes : Obligations.ReadPadBytes := by
  intro s i
  obtain ⟨hiIndex, hiFlag, hiByte⟩ := exec_read_answers (.rdIpad i) rfl s
  obtain ⟨hoIndex, hoFlag, hoByte⟩ := exec_read_answers (.rdOpad i) rfl s
  exact ⟨decode_encode (.rdIpad i), decode_encode (.rdOpad i), fun hx => ⟨hiIndex hx, hoIndex hx⟩,
    fun hx hv => ⟨hiFlag hx hv, hoFlag hx hv⟩, fun hx hv => ⟨hiByte hx hv, hoByte hx hv⟩⟩

/-- Settles O40: the common frame at `IH`. -/
theorem readInnerHashByte : Obligations.ReadInnerHashByte :=
  fun s i => ⟨decode_encode (.rdIh i), exec_read_answers (.rdIh i) rfl s⟩

/-! ### No side effect -/

/-- What R230 asks of the state `t` that a read leaves from `s`. -/
def NoSideEffect (s t : State) : Prop :=
  (rspCode t = 0x00#8 → t = { s with rsp := t.rsp }) ∧
  (rspCode t ≠ 0x00#8 → t = { s with fault := t.fault, errcode := t.errcode, rsp := t.rsp })

/-- A command that only responds has no side effect. -/
theorem noSideEffect_respond (d : Byte) (s : State) : NoSideEffect s (respond d s) :=
  ⟨fun _ => rfl, fun hne => absurd (rspCode_respond d s) hne⟩

/-- A refusal writes the error record and the response alone (R250). -/
theorem noSideEffect_raiseErr (e : Err) (s : State) : NoSideEffect s (raiseErr e s) :=
  ⟨fun hok => absurd ((rspCode_raiseErr e s).symm.trans hok) (errCode_ne_zero e), fun _ => rfl⟩

theorem noSideEffect_readIndexed (x : Space) (idx : Byte) (s : State) : NoSideEffect s (readIndexed x idx s) := by
  obtain ⟨-, h⟩ | ⟨-, -, h⟩ | ⟨-, -, h⟩ := readIndexed_cases x idx s
  · rw [h]; exact noSideEffect_raiseErr _ s
  · rw [h]; exact noSideEffect_raiseErr _ s
  · rw [h]; exact noSideEffect_respond _ s

/-- The group `RD.*`: the indexed reads and the two that only respond. -/
theorem isRead_cases {i : Instr} (h : isRead i = true) :
    (∃ x idx, readOf i = some (x, idx)) ∨ i = .rdStatus ∨ i = .rdErr := by
  simp only [isRead, Bool.or_eq_true, Option.isSome_iff_exists, Prod.exists, beq_iff_eq, or_assoc] at h
  exact h

/-- Settles O41: an indexed read responds or is refused, the other two respond. -/
theorem readsHaveNoSideEffect : Obligations.ReadsHaveNoSideEffect := by
  intro i s hi
  obtain ⟨x, idx, h⟩ | rfl | rfl := isRead_cases hi
  · exact ⟨_, exec_read i x idx h s, noSideEffect_readIndexed x idx s⟩
  · exact ⟨_, exec_rdStatus s, noSideEffect_respond _ s⟩
  · exact ⟨_, exec_rdErr s, noSideEffect_respond _ s⟩

end Sys2Proof.Machine
end

section
/-! PROOFS. The errors (60_exceptions.md): the error response and its codes (R250, R251), the reserved words are those that
no command encodes and a step refuses them (R252), a stream command out of sequence (R253), and a `PUSH` at the full byte
counter (R256). -/

namespace Sys2Proof

/-! ### Reserved words -/

/-- The words of commands are not reserved (R85): the family `EncodedWord` as one statement. -/
theorem reservedWord_encode (i : Instr) : reservedWord (encode i) = false := by
  have h : Laws.EncodedWord.Statement i := by
    cases i with
    | nop => exact Laws.EncodedWord.nop
    | sreset => exact Laws.EncodedWord.sreset
    | startHash => exact Laws.EncodedWord.startHash
    | startHmac => exact Laws.EncodedWord.startHmac
    | startDerive => exact Laws.EncodedWord.startDerive
    | push b => exact Laws.EncodedWord.push b
    | endStream => exact Laws.EncodedWord.endStream
    | rdStatus => exact Laws.EncodedWord.rdStatus
    | rdErr => exact Laws.EncodedWord.rdErr
    | rdDigest idx => exact Laws.EncodedWord.rdDigest idx
    | rdPw idx => exact Laws.EncodedWord.rdPw idx
    | rdFrag idx => exact Laws.EncodedWord.rdFrag idx
    | rdK0 idx => exact Laws.EncodedWord.rdK0 idx
    | rdIpad idx => exact Laws.EncodedWord.rdIpad idx
    | rdOpad idx => exact Laws.EncodedWord.rdOpad idx
    | rdIh idx => exact Laws.EncodedWord.rdIh idx
  obtain ⟨-, -, hres⟩ := h
  exact hres

/-- R85 read the other way: the opcode is in R82, and a class `none` opcode comes with a zero operand. -/
theorem reservedWord_eq_false_iff (w : Cmd) : reservedWord w = false ↔
    (opcOf w ∈ noneOpcodes ∨ opcOf w ∈ byteOpcodes) ∧ (opcOf w ∈ noneOpcodes → opdOf w = 0x00#8) := by
  simp [reservedWord, or_iff_not_imp_left]

theorem exists_command_of_noneOpcode : ∀ c ∈ noneOpcodes, ∃ i ∈ rowCommands, opcodeByte i = c := by decide

/-- The rows of classes `imm8` and `idx` compare no operand bit (R82). -/
theorem exists_command_of_byteOpcode :
    ∀ c ∈ byteOpcodes, ∃ i ∈ rowCommands, opcodeByte i = c ∧ operandMask i = 0x00#8 := by decide

/-- A word that is not reserved agrees with a row of the opcode map. -/
theorem exists_row_of_not_reserved {w : Cmd} (h : reservedWord w = false) :
    ∃ i, w &&& (rowOf i).2.2 = (rowOf i).2.1 := by
  obtain ⟨hopc, hopd⟩ := (reservedWord_eq_false_iff w).1 h
  obtain hnone | hbyte := hopc
  · obtain ⟨i, -, hi⟩ := exists_command_of_noneOpcode _ hnone
    refine ⟨i, (rowOf_matches_iff i w).2 ⟨hi.symm, ?_⟩⟩
    rw [hopd hnone]
    exact BitVec.zero_and
  · obtain ⟨i, -, hi, hmask⟩ := exists_command_of_byteOpcode _ hbyte
    refine ⟨i, (rowOf_matches_iff i w).2 ⟨hi.symm, ?_⟩⟩
    rw [hmask]
    exact BitVec.and_zero

theorem decode_ok_of_not_reserved {w : Cmd} (h : reservedWord w = false) : ∃ i, decode w = .ok i := by
  obtain ⟨i, hi⟩ := exists_row_of_not_reserved h
  obtain ⟨j, hj, -⟩ := (matches_rowOf_iff_decode w i).1 hi
  exact ⟨j, hj⟩

/-- Only an encoding decodes, and no encoding is reserved. -/
theorem decode_error_of_reserved {w : Cmd} (h : reservedWord w = true) : ∃ r, decode w = .error r := by
  cases hw : decode w with
  | error r => exact ⟨r, rfl⟩
  | ok i =>
    rw [← encode_of_decode hw, reservedWord_encode] at h
    exact absurd h nofun

end Sys2Proof

namespace Sys2Proof.Machine

/-! ### The error response -/

/-- The error codes as pairs (R251). -/
theorem errCode_of_mem_table {e : Err} {c : Byte}
    (h : (e, c) ∈ [(Err.illegal, 0x01#8), (Err.state, 0x02#8), (Err.index, 0x03#8), (Err.notValid, 0x04#8),
      (Err.lenOvf, 0x05#8)]) : errCode e = c := by
  have htable : (e, c) ∈ [Err.illegal, .state, .index, .notValid, .lenOvf].map fun e => (e, errCode e) := h
  obtain ⟨e', -, heq⟩ := List.mem_map.1 htable
  cases heq
  rfl

/-- Settles O10: the error response with the code that R251 gives the error. -/
theorem errorResponseRecordsFirstCode : Obligations.ErrorResponseRecordsFirstCode := by
  intro s e c h
  rw [← errCode_of_mem_table h, raiseErr]

/-! ### A step on a reserved word -/

/-- A step takes the pending command word and executes it (R180, R67). -/
theorem step_command {s : State} {w : Cmd} {rest : List HostEvent} (h : s.port = .command w :: rest) :
    step s = execWord w { s with port := rest } := by
  have htake : takeEvent s = some (.command w, { s with port := rest }) := by rw [takeEvent, h]
  rw [step, htake]
  rfl

/-- A reserved word raises `ERR_ILLEGAL` (R252). -/
theorem execWord_of_reserved {w : Cmd} (h : reservedWord w = true) (s : State) :
    execWord w s = .next (raiseErr .illegal s) := by
  obtain ⟨r, hr⟩ := decode_error_of_reserved h
  rw [execWord, hr]

/-- Settles O4: the reserved words are those that no command encodes, and the step answers them with the error response. -/
theorem reservedWordsAreIllegal : Obligations.ReservedWordsAreIllegal := by
  refine ⟨fun s w rest hport hres => ?_, fun w => decode_ok_of_not_reserved⟩
  rw [step_command hport, execWord_of_reserved hres]
  rfl

/-! ### Commands out of sequence -/

/-- `PUSH` and `END` while no operation is open are refused (R253). -/
theorem exec_stream_of_idle {i : Instr} {s : State} (hi : i = .endStream ∨ ∃ b, i = .push b) (h : s.op = .idle) :
    exec i s = .next (raiseErr .state s) := by
  obtain rfl | ⟨b, rfl⟩ := hi <;> exact congrArg Host.Outcome.next (if_pos h)

/-- Settles O12: the START commands are guarded by an idle `OP`, the stream commands by an open one. -/
theorem outOfSequenceIsRefused : Obligations.OutOfSequenceIsRefused :=
  fun _ => ⟨fun hopen _ hi => exec_start_of_open hi hopen, fun hidle _ hi => exec_stream_of_idle hi hidle⟩

/-! ### The full byte counter -/

/-- A `PUSH` into an open operation at `LEN` = MAXLEN is refused, for any parameters (R256, R6). -/
theorem pushWith_of_full {p : Params} {s : State} (b : Byte) (hop : s.op ≠ .idle) (hlen : s.len.toNat = maxLen p) :
    pushWith p b s = raiseErr .lenOvf s := by
  rw [pushWith, if_neg hop, if_pos hlen]

/-- Settles O13: MAXLEN of this hardware is 2^61 - 1, and the refusal writes the error record and the response alone. -/
theorem pushAtFullCounterIsRefused : Obligations.PushAtFullCounterIsRefused := by
  intro s b hop hlen
  have hfull : s.len.toNat = maxLen Config.hw := hlen
  exact congrArg Host.Outcome.next (pushWith_of_full b hop hfull)

end Sys2Proof.Machine
end

section
/-! PROOFS. Everything a decoded command can do: refused with the error of R257, or accepted and answered
(43_cmd_control.md R180, 60_exceptions.md R250 to R257). The other proofs about commands go through the cases of
`Accepted`. -/

namespace Sys2Proof.Machine

/-! ### The equations of START, PUSH and END where they are accepted -/

/-- What the two keyed START commands do when accepted (R183, R184). -/
def openKey (o : Op) (s : State) : State :=
  shaInit { clearValid (setSeq o .key s) with k0 := Vector.replicate 64 0x00 }

theorem startKeyed_eq_openKey (o : Op) {s : State} (h : s.op = .idle) : startKeyed o s = respond 0x00 (openKey o s) :=
  startKeyed_of_idle o h

/-- An accepted `PUSH` of a message byte (R202). -/
theorem exec_push_msg (b : Byte) {s : State} (hop : s.op ≠ .idle) (hphase : s.phase = .msg)
    (hlen : s.len.toNat < 2 ^ 61 - 1) :
    exec (.push b) s = .next (respond 0x00 (absorb (streamByte Config.hw s.op b) s)) := by
  obtain ⟨hidle, -⟩ | ⟨-, hfull, -⟩ | ⟨-, -, hkey, -⟩ | ⟨-, -, -, he⟩ := push_cases b s
  · exact absurd hidle hop
  · exact absurd hfull (Nat.ne_of_lt hlen)
  · exact absurd (hphase.symm.trans hkey) nofun
  · exact he

/-- `END` of a KEY phase (R204). -/
theorem exec_end_key {s : State} (hop : s.op ≠ .idle) (hphase : s.phase = .key) :
    exec .endStream s = .next (respond 0x00 (endKey s)) :=
  congrArg Host.Outcome.next ((if_neg hop).trans (if_pos hphase))

/-- `END` of HASH (R205). -/
theorem exec_end_hash {s : State} (hop : s.op = .hash) (hphase : s.phase = .msg) :
    exec .endStream s = .next (respond 0x00 (endHash s)) := by
  simp only [exec, execEndStream, hop, hphase, reduceCtorEq, if_true, if_false]

/-- The last `END` of HMAC (R206). -/
theorem exec_end_hmac {s : State} (hop : s.op = .hmac) (hphase : s.phase = .msg) :
    exec .endStream s = .next (respond 0x00 (setSeq .idle .key (finishTag s))) := by
  simp only [exec, execEndStream, endMac, hop, hphase, reduceCtorEq, if_false]

/-- The last `END` of DERIVE (R206). -/
theorem exec_end_derive {s : State} (hop : s.op = .derive) (hphase : s.phase = .msg) :
    exec .endStream s = .next (respond 0x00 (setSeq .idle .key (finishEncode (finishTag s)))) := by
  simp only [exec, execEndStream, endMac, hop, hphase, reduceCtorEq, if_true, if_false]

/-- All that `Encode` and `PV` <- 1 do (R206). -/
theorem finishEncode_eq (s : State) :
    finishEncode s = { s with pw := passwordOf s.h, fr := fragmentOf s.h, pv := true } := by
  rw [finishEncode, encodeResult_eq]

/-! ### Accepted commands -/

/-- The branches of accepted commands: from `s` the command answers the data byte `d` (R84) and leaves the registers
of `u`. -/
inductive Accepted (s : State) : Instr → Byte → State → Prop
  | nop : Accepted s .nop 0x00 s
  | sreset : Accepted s .sreset 0x00 (resetRegs s)
  | startHash (hop : s.op = .idle) : Accepted s .startHash 0x00 (shaInit (clearValid (setSeq .hash .msg s)))
  | startHmac (hop : s.op = .idle) : Accepted s .startHmac 0x00 (openKey .hmac s)
  | startDerive (hop : s.op = .idle) : Accepted s .startDerive 0x00 (openKey .derive s)
  | pushKey (b : Byte) (hop : s.op ≠ .idle) (hphase : s.phase = .key) (hlen : s.len.toNat < 2 ^ 61 - 1) :
      Accepted s (.push b) 0x00 (keyCapture b s)
  | pushMsg (b : Byte) (hop : s.op ≠ .idle) (hphase : s.phase = .msg) (hlen : s.len.toNat < 2 ^ 61 - 1) :
      Accepted s (.push b) 0x00 (absorb (streamByte Config.hw s.op b) s)
  | endKey (hop : s.op ≠ .idle) (hphase : s.phase = .key) : Accepted s .endStream 0x00 (endKey s)
  | endHash (hop : s.op = .hash) (hphase : s.phase = .msg) : Accepted s .endStream 0x00 (endHash s)
  | endHmac (hop : s.op = .hmac) (hphase : s.phase = .msg) :
      Accepted s .endStream 0x00 (setSeq .idle .key (finishTag s))
  | endDerive (hop : s.op = .derive) (hphase : s.phase = .msg) :
      Accepted s .endStream 0x00 (setSeq .idle .key (finishEncode (finishTag s)))
  | rdStatus : Accepted s .rdStatus (statusView s) s
  | rdErr : Accepted s .rdErr s.errcode s
  | read {i : Instr} {x : Space} {idx : Byte} (hread : readOf i = some (x, idx)) (hidx : idx.toNat < spaceSize x)
      (hvalid : spaceValid x s = true) : Accepted s i (spaceByte x idx.toNat s) s

/-- The cases of `Accepted` are what the model executes. -/
theorem Accepted.exec_eq {s u : State} {i : Instr} {d : Byte} (h : Accepted s i d u) :
    exec i s = .next (respond d u) := by
  cases h with
  | nop => exact exec_nop s
  | sreset => exact exec_sreset s
  | startHash hop => exact exec_startHash_of_idle hop
  | startHmac hop => rw [exec_startHmac, startKeyed_eq_openKey .hmac hop]
  | startDerive hop => rw [exec_startDerive, startKeyed_eq_openKey .derive hop]
  | pushKey b hop hphase hlen => rw [exec_push_key b hop hphase hlen, ← keyCapture_eq]
  | pushMsg b hop hphase hlen => exact exec_push_msg b hop hphase hlen
  | endKey hop hphase => exact exec_end_key hop hphase
  | endHash hop hphase => exact exec_end_hash hop hphase
  | endHmac hop hphase => exact exec_end_hmac hop hphase
  | endDerive hop hphase => exact exec_end_derive hop hphase
  | rdStatus => exact exec_rdStatus s
  | rdErr => exact exec_rdErr s
  | read hread hidx hvalid =>
    obtain ⟨-, -, hbyte⟩ := exec_read_answers i hread s
    exact hbyte hidx hvalid

/-! ### Refused or accepted -/

/-- The error of an indexed read: the index is checked before the valid flag (R257). -/
theorem refusalOf_read {i : Instr} {x : Space} {idx : Byte} (h : readOf i = some (x, idx)) (s : State) :
    refusalOf i s =
      if spaceSize x ≤ idx.toNat then some .index else if spaceValid x s = false then some .notValid else none := by
  cases i <;> cases h <;> rfl

/-- A command as R257 settles it: one error and nothing but its response, or none and an accepted branch. -/
def Settled (i : Instr) (s : State) : Prop :=
  (∃ e, refusalOf i s = some e ∧ exec i s = .next (raiseErr e s)) ∨
  (refusalOf i s = none ∧ ∃ d u, Accepted s i d u)

theorem settled_read {i : Instr} {x : Space} {idx : Byte} (h : readOf i = some (x, idx)) (s : State) :
    Settled i s := by
  rw [Settled, refusalOf_read h, exec_read i x idx h]
  obtain ⟨hidx, he⟩ | ⟨hidx, hvalid, he⟩ | ⟨hidx, hvalid, -⟩ := readIndexed_cases x idx s
  · rw [if_pos hidx, he]
    exact .inl ⟨_, rfl, rfl⟩
  · rw [if_neg (Nat.not_le.2 hidx), if_pos hvalid, he]
    exact .inl ⟨_, rfl, rfl⟩
  · rw [if_neg (Nat.not_le.2 hidx), if_neg (ne_false_of_eq_true hvalid)]
    exact .inr ⟨rfl, _, _, .read h hidx hvalid⟩

theorem settled_start {i : Instr} (hi : i = .startHash ∨ i = .startHmac ∨ i = .startDerive) (s : State) :
    Settled i s := by
  have hrule : refusalOf i s = if s.op = .idle then none else some .state := by
    obtain rfl | rfl | rfl := hi <;> rfl
  rw [Settled, hrule]
  by_cases hop : s.op = .idle
  · rw [if_pos hop]
    refine .inr ⟨rfl, ?_⟩
    obtain rfl | rfl | rfl := hi
    · exact ⟨_, _, .startHash hop⟩
    · exact ⟨_, _, .startHmac hop⟩
    · exact ⟨_, _, .startDerive hop⟩
  · rw [if_neg hop]
    exact .inl ⟨_, rfl, exec_start_of_open hi hop⟩

theorem settled_push (b : Byte) (s : State) : Settled (.push b) s := by
  have hrule : refusalOf (.push b) s =
      if s.op = .idle then some .state else if s.len.toNat = 2 ^ 61 - 1 then some .lenOvf else none := rfl
  rw [Settled, hrule]
  obtain ⟨hop, he⟩ | ⟨hop, hfull, he⟩ | ⟨hop, hlen, hphase, -⟩ | ⟨hop, hlen, hphase, -⟩ := push_cases b s
  · rw [if_pos hop]
    exact .inl ⟨_, rfl, he⟩
  · rw [if_neg hop, if_pos hfull]
    exact .inl ⟨_, rfl, he⟩
  · rw [if_neg hop, if_neg (Nat.ne_of_lt hlen)]
    exact .inr ⟨rfl, _, _, .pushKey b hop hphase hlen⟩
  · rw [if_neg hop, if_neg (Nat.ne_of_lt hlen)]
    exact .inr ⟨rfl, _, _, .pushMsg b hop hphase hlen⟩

theorem settled_endStream (s : State) : Settled .endStream s := by
  by_cases hop : s.op = .idle
  · exact .inl ⟨.state, if_pos hop, exec_stream_of_idle (.inl rfl) hop⟩
  refine .inr ⟨if_neg hop, ?_⟩
  cases hphase : s.phase with
  | key => exact ⟨_, _, .endKey hop hphase⟩
  | msg =>
    cases hop' : s.op with
    | idle => exact absurd hop' hop
    | hash => exact ⟨_, _, .endHash hop' hphase⟩
    | hmac => exact ⟨_, _, .endHmac hop' hphase⟩
    | derive => exact ⟨_, _, .endDerive hop' hphase⟩

theorem settled (i : Instr) (s : State) : Settled i s := by
  cases i with
  | nop => exact .inr ⟨rfl, _, _, .nop⟩
  | sreset => exact .inr ⟨rfl, _, _, .sreset⟩
  | startHash => exact settled_start (.inl rfl) s
  | startHmac => exact settled_start (.inr (.inl rfl)) s
  | startDerive => exact settled_start (.inr (.inr rfl)) s
  | push b => exact settled_push b s
  | endStream => exact settled_endStream s
  | rdStatus => exact .inr ⟨rfl, _, _, .rdStatus⟩
  | rdErr => exact .inr ⟨rfl, _, _, .rdErr⟩
  | rdDigest | rdPw | rdFrag | rdK0 | rdIpad | rdOpad | rdIh => exact settled_read rfl s

theorem exec_of_refusal {i : Instr} {s : State} {e : Err} (h : refusalOf i s = some e) :
    exec i s = .next (raiseErr e s) := by
  obtain ⟨e', he', hexec⟩ | ⟨hnone, -⟩ := settled i s
  · cases h.symm.trans he'
    exact hexec
  · exact absurd (h.symm.trans hnone) nofun

theorem accepted_of_not_refused {i : Instr} {s : State} (h : refusalOf i s = none) : ∃ d u, Accepted s i d u := by
  obtain ⟨e, he, -⟩ | ⟨-, hacc⟩ := settled i s
  · exact absurd (h.symm.trans he) nofun
  · exact hacc

/-- Everything a command can do, as what its next state can be. -/
theorem exec_cases {i : Instr} {s t : State} (h : exec i s = .next t) :
    (∃ e, refusalOf i s = some e ∧ t = raiseErr e s) ∨
    (refusalOf i s = none ∧ ∃ d u, Accepted s i d u ∧ t = respond d u) := by
  obtain ⟨e, he, hexec⟩ | ⟨hnone, d, u, hacc⟩ := settled i s
  · cases h.symm.trans hexec
    exact .inl ⟨e, he, rfl⟩
  · cases h.symm.trans hacc.exec_eq
    exact .inr ⟨hnone, d, u, hacc, rfl⟩

/-- Settles O11: the error of R257 is the one taken, and an accepted branch responds with code 0x00. -/
theorem refusedExactlyAsRuled : Obligations.RefusedExactlyAsRuled := by
  refine fun i s => ⟨fun e => exec_of_refusal, fun hnone => ?_⟩
  obtain ⟨d, u, hacc⟩ := accepted_of_not_refused hnone
  exact ⟨_, hacc.exec_eq, rspCode_respond d u, rfl⟩

end Sys2Proof.Machine
end

section
/-! PROOFS. What every command and every step answers and keeps: the response word (30_encoding.md R84), the sticky
error record (10_state.md R44, R45), the port, and the step itself (43_cmd_control.md R180, 70_reset_and_hazards.md
R280, R281). -/

namespace Sys2Proof.Machine

/-! ### Response words -/

theorem errCode_range (e : Err) : 1 ≤ (errCode e).toNat ∧ (errCode e).toNat ≤ 5 := by cases e <;> decide

/-- Only a read answers with data (R84). -/
theorem Accepted.data_eq_zero {s u : State} {i : Instr} {d : Byte} (h : Accepted s i d u) (hi : isRead i = false) :
    d = 0x00#8 := by
  cases h with
  | rdStatus | rdErr => cases hi
  | read hread => simp [isRead, hread] at hi
  | _ => rfl

/-- Settles O17: `respond` answers with code 0x00, and data for a read only; `raiseErr` answers with the code of its
error. -/
theorem responseWordShape : Obligations.ResponseWordShape := by
  intro i s
  cases he : refusalOf i s with
  | some e =>
    have hcode : (errCode e ++ 0x00#8 : BitVec 16).extractLsb' 8 8 = errCode e := opcOf_append _ _
    refine ⟨_, errCode e ++ 0x00#8, exec_of_refusal he, rfl, .inr ?_⟩
    rw [hcode]
    exact ⟨opdOf_append _ _, errCode_range e⟩
  | none =>
    obtain ⟨d, u, hacc⟩ := accepted_of_not_refused he
    refine ⟨_, 0x00#8 ++ d, hacc.exec_eq, rfl, .inl ⟨opcOf_append _ _, fun hi => ?_⟩⟩
    rw [hacc.data_eq_zero hi]
    rfl

/-! ### The error record and the host's side -/

/-- Of the accepted commands `SRESET` alone writes the error record or draws free values. -/
theorem Accepted.keeps_record {s u : State} {i : Instr} {d : Byte} (h : Accepted s i d u) (hi : i ≠ .sreset) :
    SameErrors s u ∧ SameHost s u := by
  cases h with
  | sreset => exact absurd rfl hi
  | pushKey b =>
    rw [keyCapture_eq]
    exact ⟨⟨rfl, rfl⟩, rfl, rfl⟩
  | endKey =>
    exact ⟨⟨keyNormalizeAndInnerStart_fault s, keyNormalizeAndInnerStart_errcode s⟩,
      keyNormalizeAndInnerStart_port s, keyNormalizeAndInnerStart_draws s⟩
  | _ => exact ⟨⟨rfl, rfl⟩, rfl, rfl⟩

/-- No command writes what the host will still give. -/
theorem Accepted.keeps_port {s u : State} {i : Instr} {d : Byte} (h : Accepted s i d u) : u.port = s.port := by
  by_cases hi : i = .sreset
  · subst hi
    cases h with
    | sreset => exact resetRegs_port s
    | read hread => cases hread
  · obtain ⟨-, hport, -⟩ := h.keeps_record hi
    exact hport

/-- Settles O15: a refusal sets `FAULT` and writes `ERRCODE` only where it is 0x00, and an accepted command keeps
both. -/
theorem errorRecordIsSticky : Obligations.ErrorRecordIsSticky := by
  intro i s t h hi
  obtain ⟨e, -, rfl⟩ | ⟨-, d, u, hacc, rfl⟩ := exec_cases h
  · exact ⟨fun _ => rfl, fun hcode => if_neg hcode⟩
  · obtain ⟨⟨hfault, hcode⟩, -⟩ := hacc.keeps_record hi
    exact ⟨fun hs => hfault.trans hs, fun _ => hcode⟩

/-! ### The step -/

theorem step_no_event {s : State} (h : s.port = []) : step s = .next s := by
  rw [step, takeEvent, h]

theorem step_hardReset {s : State} {rest : List HostEvent} (h : s.port = .hardReset :: rest) :
    step s = .next (hardReset { s with port := rest }) := by
  rw [step, takeEvent, h]
  rfl

theorem execWord_of_decode {w : Cmd} {i : Instr} (h : decode w = .ok i) (s : State) : execWord w s = exec i s := by
  rw [execWord, h]

/-- Everything a command word can do: the error response, or a command's accepted branch. -/
theorem execWord_cases (w : Cmd) (s : State) :
    (∃ e, execWord w s = .next (raiseErr e s)) ∨ (∃ i d u, Accepted s i d u ∧ execWord w s = .next (respond d u)) := by
  cases hw : decode w with
  | error r => exact .inl ⟨.illegal, by rw [execWord, hw]⟩
  | ok i =>
    rw [execWord_of_decode hw]
    obtain ⟨e, -, hexec⟩ | ⟨-, d, u, hacc⟩ := settled i s
    · exact .inl ⟨e, hexec⟩
    · exact .inr ⟨i, d, u, hacc, hacc.exec_eq⟩

/-- Everything a step can do. -/
theorem step_cases (s : State) :
    (s.port = [] ∧ step s = .next s) ∨
    (∃ rest, s.port = .hardReset :: rest ∧ step s = .next (hardReset { s with port := rest })) ∨
    (∃ w rest e, s.port = .command w :: rest ∧ step s = .next (raiseErr e { s with port := rest })) ∨
    (∃ w rest i d u, s.port = .command w :: rest ∧ Accepted { s with port := rest } i d u ∧
      step s = .next (respond d u)) := by
  cases hport : s.port with
  | nil => exact .inl ⟨rfl, step_no_event hport⟩
  | cons ev rest =>
    refine .inr ?_
    cases ev with
    | hardReset => exact .inl ⟨rest, rfl, step_hardReset hport⟩
    | command w =>
      refine .inr ?_
      rw [step_command hport]
      obtain ⟨e, hexec⟩ | ⟨i, d, u, hacc, hexec⟩ := execWord_cases w { s with port := rest }
      · exact .inl ⟨w, rest, e, rfl, hexec⟩
      · exact .inr ⟨w, rest, i, d, u, rfl, hacc, hexec⟩

/-- An invariant that speaks of registers only, holds after a reset and is kept by errors and by accepted commands, is
kept by every step. -/
theorem step_keeps {P : State → Prop} (hport : ∀ s rest, P s → P { s with port := rest })
    (hreset : ∀ s, P (hardReset s)) (herr : ∀ e s, P s → P (raiseErr e s))
    (hacc : ∀ s i d u, P s → Accepted s i d u → P (respond d u)) {s t : State} (hs : P s) (h : step s = .next t) :
    P t := by
  obtain ⟨-, he⟩ | ⟨rest, -, he⟩ | ⟨w, rest, e, -, he⟩ | ⟨w, rest, i, d, u, -, hu, he⟩ := step_cases s
  all_goals cases h.symm.trans he
  · exact hs
  · exact hreset _
  · exact herr e _ (hport s rest hs)
  · exact hacc _ i d u (hport s rest hs) hu

/-- Settles O5: the decoded command is what the command word executes. -/
theorem stepRunsDecodedCommand : Obligations.StepRunsDecodedCommand := by
  intro s w rest i hport hdec
  rw [step_command hport, execWord_of_decode hdec]

/-- Settles O6: with no event to take, the step answers its own state. -/
theorem stepWithNoEventIsIdle : Obligations.StepWithNoEventIsIdle := fun _ => step_no_event

/-- Settles O7: the step takes the event, and the reset writes every control register. -/
theorem hardResetResetsControl : Obligations.HardResetResetsControl :=
  fun _ _ hport => ⟨_, step_hardReset hport, controlReset_hardReset _, rfl, rfl⟩

/-- Settles O56: each of the things a step can do answers a next state, takes at most the first event, and has a
response where that event is a command. -/
theorem everyStepAnswers : Obligations.EveryStepAnswers := by
  intro s
  obtain ⟨hport, he⟩ | ⟨rest, hport, he⟩ | ⟨w, rest, e, hport, he⟩ | ⟨w, rest, i, d, u, hport, hacc, he⟩ := step_cases s
  all_goals rw [hport]
  · exact ⟨_, he, hport, nofun⟩
  · exact ⟨_, he, rfl, nofun⟩
  · exact ⟨_, he, rfl, fun _ _ _ => rfl⟩
  · exact ⟨_, he, hacc.keeps_port, fun _ _ _ => rfl⟩

/-! ### After reset -/

/-- Settles O19: `SRESET` is never refused, and resets the registers before it responds. -/
theorem sresetResetsControl : Obligations.SresetResetsControl :=
  ⟨decode_encode .sreset, fun s => ⟨_, exec_sreset s, controlReset_sreset s, rfl, rfl⟩⟩

/-- Settles O22: the two sides of the guard on `OP`, in what the two keyed START commands share. -/
theorem startDeriveOpensKeyPhase : Obligations.StartDeriveOpensKeyPhase :=
  ⟨decode_encode .startDerive, fun _ =>
    ⟨exec_start_of_open (.inr (.inr rfl)), fun hop => (Accepted.startDerive hop).exec_eq⟩⟩

/-- After reset no space is readable (R43, R50). -/
theorem ControlReset.spaceValid_eq_false {s : State} (h : ControlReset s) (x : Space) : spaceValid x s = false := by
  cases x with
  | digest => exact h.dv
  | pw | frag => exact h.pv
  | k0 | ipad | opad => exact h.kv
  | ih => exact h.ihv

/-- Settles O9: after reset `STATUS` and `ERRCODE` are zero, no valid flag is set and no operation is open. -/
theorem resetIsObservedAsIdle : Obligations.ResetIsObservedAsIdle := by
  refine fun s h => ⟨?_, ?_, fun i x idx hread hidx => ?_, fun i hi => ?_, fun i hi => ?_⟩
  · rw [exec_rdStatus, h.statusView_eq_zero]
    rfl
  · exact congrArg (fun code => Host.Outcome.next (respond code s)) h.errcode
  · obtain ⟨-, hinvalid, -⟩ := exec_read_answers i hread s
    exact ⟨_, hinvalid hidx (h.spaceValid_eq_false x), rfl, rfl⟩
  · exact ⟨_, exec_stream_of_idle hi h.op, rfl, rfl⟩
  · obtain rfl | rfl | rfl := hi
    · exact ⟨_, (Accepted.startHash h.op).exec_eq, rfl, h.fault, nofun⟩
    · exact ⟨_, (Accepted.startHmac h.op).exec_eq, rfl, h.fault, nofun⟩
    · exact ⟨_, (Accepted.startDerive h.op).exec_eq, rfl, h.fault, nofun⟩

end Sys2Proof.Machine
end

section
/-! PROOFS. The obligations on decoding that the lemmas on the decoder and the encoder settle (30_encoding.md R82,
R83). -/

namespace Sys2Proof

/-- Settles O2: the decoder and the encoder are inverse to each other, arm by arm of the decoder. -/
theorem decodeAndEncodeAgree : Obligations.DecodeAndEncodeAgree := ⟨decode_encode, fun _ _ => encode_of_decode⟩

/-- Settles O1: the eight words are encodings, and the two reserved ones fail the operand check and the opcode search.
-/
theorem sampleWordsDecode : Obligations.SampleWordsDecode :=
  ⟨decode_encode .nop, decode_encode .sreset, decode_encode .startDerive, decode_encode (.push 0xA5#8),
    decode_encode .endStream, rfl, decode_encode .rdErr, decode_encode (.rdDigest 0x13#8),
    decode_encode (.rdOpad 0xFF#8), rfl⟩

end Sys2Proof
end

section
/-! PROOFS. What `Finalize`, `OuterHash` and the last `END`s leave as whole states, from any state that holds the hash
of some bytes (40_sha1_engine.md R100, R104, R115, 41_hmac_wrapper.md R142 to R144). The registers W, A..E and BLK
stay open: they are hidden, and a proof that keeps them opaque never unrolls a loop. -/

namespace Sys2Proof.Machine

/-- Settles O42: the constants of `ShaInit` are those of `IVROM`. -/
theorem shaInitLoadsConstants : Obligations.ShaInitLoadsConstants := fun _ => rfl

/-- Settles O45: the schedule is one of the block, and the rounds and sums are ones of `H` and the schedule. -/
theorem compressDependsOnHashAndBlock : Obligations.CompressDependsOnHashAndBlock := by
  intro s r hh hblk
  refine ⟨?_, ?_, ?_, ?_⟩
  · rw [compress_h, compress_h, hh, hblk]
  · rw [compress_w, compress_w, hblk]
  · rw [compress_vars, compress_vars, hh, hblk]
  · rw [compress_h, compress_w, compress_vars]
    exact compress_eq s

/-! ### Finalize -/

/-- All that `Finalize` does after the bytes `m` (R104, R115). -/
theorem finalize_of_absorbed {s : State} {m : List Byte} (hs : Absorbed s m) :
    ∃ w v b, finalize s = { s with h := sha1State m, fill := 0, w := w, vars := v, blk := b, t := 0 } := by
  obtain ⟨r, hr, hlen⟩ := finalize_spec s
  obtain ⟨hh, hfill⟩ := hs.finalize.whole (padded_length m)
  have ht := hs.finalize_t
  rw [hr] at hh hfill ht
  have hh' : r.h = sha1State m := hh
  have hfill' : r.fill = 0 := hfill
  have ht' : r.t = 0 := ht
  refine ⟨r.w, r.vars, r.blk, ?_⟩
  rw [hr, onEngine, hh', hfill', hlen, ht']

/-- Settles O47: three of the registers of the whole state after `Finalize`. -/
theorem finalizePadsAndHashes : Obligations.FinalizePadsAndHashes := by
  intro s m hs
  obtain ⟨w, v, b, he⟩ := finalize_of_absorbed hs
  rw [he]
  exact ⟨rfl, rfl, rfl⟩

/-- A stream of bytes absorbed one by one is appended, up to the counter's limit. -/
theorem absorbed_foldl {s : State} {m : List Byte} (hs : Absorbed s m) (l : List Byte)
    (hlim : m.length + l.length ≤ 2 ^ 61 - 1) : Absorbed (l.foldl (fun r b => absorb b r) s) (m ++ l) := by
  induction l generalizing s m with
  | nil => rwa [List.foldl_nil, List.append_nil]
  | cons b l ih =>
    rw [List.length_cons] at hlim
    rw [List.foldl_cons, List.append_cons]
    exact ih (hs.absorb b (by omega)) (by rw [List.length_append, List.length_singleton]; omega)

/-- Settles O48: the stream is absorbed from the empty hash of `ShaInit`, and `Finalize` ends it. -/
theorem streamedSha1EqualsClosedForm : Obligations.StreamedSha1EqualsClosedForm := by
  intro s m hlen
  have habs := absorbed_foldl (absorbed_shaInit s) m (by rw [List.length_nil]; omega)
  obtain ⟨w, v, b, he⟩ := finalize_of_absorbed habs
  rw [he, List.nil_append, sha1]

/-! ### OuterHash -/

/-- The bytes before the `Finalize` of `OuterHash` reach the SHA1CE registers only. -/
theorem absorb_outer_onlyEngine (s : State) : OnlyEngine s (absorbInnerHash (absorbPad opadC (shaInit s))) :=
  ((shaInit_onlyEngine s).trans (absorbPad_onlyEngine _ _)).trans (absorbInnerHash_onlyEngine _)

/-- All that `OuterHash` does, from every state (R144). -/
theorem outerHash_eq (s : State) : ∃ w v b, outerHash s =
    { s with h := outerState s.k0 s.ih, len := 84, fill := 0, w := w, vars := v, blk := b, t := 0 } := by
  have habs := absorbed_outer s
  obtain ⟨w, v, b, he⟩ := finalize_of_absorbed habs
  obtain ⟨r, hr⟩ := absorb_outer_onlyEngine s
  have hlen : r.len = 84 := by
    have hcount := habs.len
    rw [hr] at hcount
    apply BitVec.eq_of_toNat_eq
    simpa [onEngine] using hcount
  refine ⟨w, v, b, ?_⟩
  rw [outerHash, he, hr, onEngine, hlen]
  rfl

/-- Settles O49: the whole state after `OuterHash` writes none of the results and flags. -/
theorem outerHashIsTwoBlocks : Obligations.OuterHashIsTwoBlocks := by
  intro s
  obtain ⟨w, v, b, he⟩ := outerHash_eq s
  rw [he]
  exact ⟨rfl, rfl, rfl, ⟨rfl, rfl, rfl, rfl⟩, rfl, rfl, rfl, rfl⟩

/-! ### END -/

/-- All that ending a key phase does after the key stream `k` (R204, R142). -/
theorem endKey_of_absorbed {s : State} {k : List Byte} (hs : Absorbed s k) (hk : KeyCaptured s k) :
    ∃ w v b, endKey s =
      { s with k0 := normalKey k, kv := true, phase := .msg, len := 64, fill := 0
               h := compressFn ivrom (blockOf (padBlock ipadC (normalKey k)))
               w := w, vars := v, blk := b, t := 0 } := by
  obtain ⟨r, k0, hlong, -, q, hlen, hfill, ht, hh, -, he⟩ := endKey_spec s
  have hnormal := hashLongKey_k0 hs hk
  rw [hlong] at hnormal
  have hk0 : k0 = normalKey k := hnormal
  subst hk0
  refine ⟨q.w, q.vars, q.blk, ?_⟩
  rw [he, onEngine, hlen, hfill, ht, hh]

/-- All that `END` of HASH does after the message `m` (R205). -/
theorem endHash_of_absorbed {s : State} {m : List Byte} (hs : Absorbed s m) :
    ∃ w v b, endHash s =
      { s with h := sha1State m, dv := true, op := .idle, phase := .key, fill := 0
               w := w, vars := v, blk := b, t := 0 } := by
  obtain ⟨w, v, b, he⟩ := finalize_of_absorbed hs
  refine ⟨w, v, b, ?_⟩
  rw [endHash, he, setSeq]

/-- The inner hash that `InnerFinish` takes from `H` (R143). -/
theorem finalize_h_of_absorbed_inner {s : State} {m : List Byte} (hs : Absorbed s (padBlock 0x36 s.k0 ++ m)) :
    (finalize s).h = innerState s.k0 m := by
  obtain ⟨w, v, b, he⟩ := finalize_of_absorbed hs
  rw [he, innerState]

/-- All that computing the tag does after the message `m` behind the ipad block (R206). -/
theorem finishTag_of_absorbed {s : State} {m : List Byte} (hs : Absorbed s (padBlock 0x36 s.k0 ++ m)) :
    ∃ w v b, finishTag s =
      { s with ih := digestView (innerState s.k0 m), h := tagState s.k0 m, ihv := true, dv := true
               len := 84, fill := 0, w := w, vars := v, blk := b, t := 0 } := by
  obtain ⟨r, ih, hih, hlen, hfill, ht, hh, he⟩ := finishTag_spec s
  rw [finalize_h_of_absorbed_inner hs] at hih
  subst hih
  refine ⟨r.w, r.vars, r.blk, ?_⟩
  rw [he, onEngine, hlen, hfill, ht, hh, tagState]

/-- Settles O28: the whole state after the end of a key phase, with the response. -/
theorem endOfKeyStartsInnerHash : Obligations.EndOfKeyStartsInnerHash := by
  intro s k hop hphase hs hk
  obtain ⟨w, v, b, he⟩ := endKey_of_absorbed hs hk
  refine ⟨w, v, b, ?_⟩
  rw [exec_end_key hop hphase, he]
  rfl

/-- Settles O29: the whole state after the end of HASH, with the response. -/
theorem endOfHashGivesSha1 : Obligations.EndOfHashGivesSha1 := by
  intro s m hop hphase hs
  obtain ⟨w, v, b, he⟩ := endHash_of_absorbed hs
  refine ⟨w, v, b, ?_⟩
  rw [exec_end_hash hop hphase, he]
  rfl

/-- Settles O30: the whole state after the tag is computed, with `SEQ` idle and the response. -/
theorem endOfHmacGivesTag : Obligations.EndOfHmacGivesTag := by
  intro s m hop hphase hs
  obtain ⟨w, v, b, he⟩ := finishTag_of_absorbed hs
  refine ⟨w, v, b, ?_⟩
  rw [exec_end_hmac hop hphase, he]
  rfl

/-! ### The outputs of DERIVE as strings -/

/-- The password of a digest (R163) is the string of R165 step 3. -/
theorem toList_passwordOf (h : Vector Word 5) : (passwordOf h).toList = passwordString (digestView h).toList := by
  apply List.ext_getElem
  · simp [passwordString]
  · intro j h1 h2
    simp [passwordOf, passwordString, digestView]

/-- Dropping a byte moves the characters of `Hex` by two. -/
theorem hexChar_add_two (byteAt : Nat → Byte) (j : Nat) :
    hexChar byteAt (j + 2) = hexChar (fun i => byteAt (i + 1)) j := by
  simp [hexChar]

/-- `Hex` of a sequence, character by character (R162). -/
theorem hexString_eq_map (l : List Byte) :
    hexString l = (List.range (2 * l.length)).map (hexChar fun i => l.getD i 0x00) := by
  induction l with
  | nil => rfl
  | cons b l ih =>
    have htail : hexString (b :: l) = getAt hexRom (b.toNat / 16) :: getAt hexRom (b.toNat % 16) :: hexString l := rfl
    rw [htail, ih, List.length_cons, Nat.mul_succ, List.range_succ_eq_map, List.range_succ_eq_map]
    simp only [List.map_cons, List.map_map]
    refine congrArg₂ List.cons rfl (congrArg₂ List.cons rfl (List.map_congr_left fun j _ => ?_))
    exact (hexChar_add_two (fun i => (b :: l).getD i 0x00) j).symm

/-- The fragment of a digest (R164) is the string of R165 step 4. -/
theorem toList_fragmentOf (h : Vector Word 5) : (fragmentOf h).toList = fragmentString (digestView h).toList := by
  rw [fragmentString, hexString_eq_map]
  apply List.ext_getElem
  · simp
  · intro j h1 h2
    have hj : j / 2 < 20 := by simp at h1; omega
    simp [fragmentOf, hexChar, digestView, hj]

/-- Settles O31: as for HMAC, and the encoder runs on the tag. -/
theorem endOfDeriveGivesPassword : Obligations.EndOfDeriveGivesPassword := by
  intro s m hop hphase hs
  obtain ⟨w, v, b, he⟩ := finishTag_of_absorbed hs
  refine ⟨w, v, b, passwordOf (tagState s.k0 m), fragmentOf (tagState s.k0 m), ?_, toList_passwordOf _,
    toList_fragmentOf _⟩
  rw [exec_end_derive hop hphase, he]
  rfl

/-! ### The frame of END in every state -/

/-- What `END` of a key phase keeps (R204). -/
theorem endKey_keeps (s : State) : (endKey s).ih = s.ih ∧ (endKey s).pw = s.pw ∧ (endKey s).fr = s.fr ∧
    (s.len.toNat ≤ 64 → (endKey s).k0 = s.k0) := by
  obtain ⟨-, k, -, hshort, q, -, -, -, -, -, he⟩ := endKey_spec s
  rw [he]
  exact ⟨rfl, rfl, rfl, hshort⟩

/-- What `END` of HASH keeps (R205). -/
theorem endHash_keeps (s : State) : (endHash s).k0 = s.k0 ∧ (endHash s).ih = s.ih ∧ (endHash s).pw = s.pw ∧
    (endHash s).fr = s.fr ∧ (endHash s).len = s.len := by
  obtain ⟨r, -, hlen, he⟩ := endHash_spec s
  rw [he]
  exact ⟨rfl, rfl, rfl, rfl, hlen⟩

/-- The registers that `END` leaves unchanged from `s` to `t`, branch by branch. -/
def KeptByEnd (s t : State) : Prop :=
  (s.phase = .key → t.ih = s.ih ∧ t.pw = s.pw ∧ t.fr = s.fr ∧ (s.len.toNat ≤ 64 → t.k0 = s.k0)) ∧
  (s.phase = .msg → t.k0 = s.k0) ∧
  (s.phase = .msg → s.op = .hash → t.ih = s.ih ∧ t.pw = s.pw ∧ t.fr = s.fr ∧ t.len = s.len) ∧
  (s.phase = .msg → s.op = .hmac → t.pw = s.pw ∧ t.fr = s.fr)

/-- The response is none of them. Stated of any `t`, so that no check compares the state a branch of `END` builds. -/
theorem KeptByEnd.respond {s t : State} (h : KeptByEnd s t) (d : Byte) : KeptByEnd s (respond d t) := h

theorem Accepted.keptByEnd {s u : State} {d : Byte} (h : Accepted s .endStream d u) : KeptByEnd s u := by
  cases h with
  | endKey _ hphase =>
    rw [KeptByEnd, hphase]
    exact ⟨fun _ => endKey_keeps s, nofun, nofun, nofun⟩
  | endHash hhash hphase =>
    obtain ⟨hk0, hrest⟩ := endHash_keeps s
    rw [KeptByEnd, hphase, hhash]
    exact ⟨nofun, fun _ => hk0, fun _ _ => hrest, nofun⟩
  | endHmac hhmac hphase =>
    obtain ⟨r, ih, -, -, -, -, -, he⟩ := finishTag_spec s
    rw [KeptByEnd, hphase, hhmac, he]
    exact ⟨nofun, fun _ => rfl, nofun, fun _ _ => ⟨rfl, rfl⟩⟩
  | endDerive hderive hphase =>
    obtain ⟨r, ih, -, -, -, -, -, he⟩ := finishTag_spec s
    rw [KeptByEnd, hphase, hderive, he]
    exact ⟨nofun, fun _ => rfl, nofun, nofun⟩
  | read hread => cases hread

/-- Settles O32: each branch of `END` writes SHA1CE registers and the few others that its frame leaves out. -/
theorem endLeavesTheRest : Obligations.EndLeavesTheRest := by
  intro s t hop hexec
  obtain ⟨e, he, -⟩ | ⟨-, d, u, hacc, rfl⟩ := exec_cases hexec
  · exact absurd ((if_neg hop).symm.trans he) nofun
  · obtain ⟨herr, hhost⟩ := hacc.keeps_record nofun
    exact ⟨herr, hhost, hacc.keptByEnd.respond d⟩

end Sys2Proof.Machine
end

section
/-! PROOFS. `PUSH` for every parameter (44_cmd_stream.md R200, R256), into a message phase (R202), and what it does to
the stream absorbed so far (10_state.md R49 (b), (d)); the fold of its byte (42_passy_encoder.md R160). -/

namespace Sys2Proof.Machine

/-! ### The fold -/

/-- The capitals of either range stand low enough for 0x20 to be added without a carry (R160). -/
theorem toNat_foldByte (l : Bool) (b : Byte) : (foldByte l b).toNat =
    if 0x41 ≤ b.toNat ∧ b.toNat ≤ 0x5A then b.toNat + 0x20
    else if l = true ∧ 0xC0 ≤ b.toNat ∧ b.toNat ≤ 0xDE ∧ b.toNat ≠ 0xD7 then b.toNat + 0x20
    else b.toNat := by
  have hadd : b.toNat ≤ 0xDE → (b + 0x20).toNat = b.toNat + 0x20 := by
    intro h
    rw [BitVec.toNat_add, show (0x20 : Byte).toNat = 0x20 from rfl]
    omega
  rw [foldByte]
  split
  next h => exact hadd (by omega)
  next =>
    split
    next h =>
      obtain ⟨-, -, hle, -⟩ := h
      exact hadd hle
    next => rfl

/-- Settles O50: a folded byte lies in neither range of capitals. -/
theorem foldLowersAsRuled : Obligations.FoldLowersAsRuled := by
  refine fun l b => ⟨toNat_foldByte l b, BitVec.eq_of_toNat_eq ?_⟩
  rw [toNat_foldByte l (foldByte l b), toNat_foldByte l b]
  split_ifs <;> omega

/-- The byte a message phase absorbs on this hardware, `FOLD_LATIN1` being 0 (R202). -/
theorem streamByte_hw (o : Op) (b : Byte) : streamByte Config.hw o b =
    if o = .derive ∧ 0x41 ≤ b.toNat ∧ b.toNat ≤ 0x5A then b + 0x20#8 else b := by
  by_cases ho : o = .derive
  · simp [streamByte, foldByte, Config.hw, ho]
  · simp [streamByte, ho]

theorem streamByte_of_ne_derive (p : Params) {o : Op} (h : o ≠ .derive) (b : Byte) : streamByte p o b = b := if_neg h

/-! ### The counter -/

theorem toNat_len_succ {n : BitVec 61} (h : n.toNat < 2 ^ 61 - 1) : (n + 1).toNat = n.toNat + 1 := by
  rw [BitVec.toNat_add, show (1 : BitVec 61).toNat = 1 from rfl]
  omega

@[simp] theorem keyCapture_len (b : Byte) (s : State) : (keyCapture b s).len = s.len + 1 := by
  rw [keyCapture_eq, absorb_len]

@[simp] theorem keyCapture_op (b : Byte) (s : State) : (keyCapture b s).op = s.op := by
  rw [keyCapture_eq, absorb_op]

@[simp] theorem keyCapture_phase (b : Byte) (s : State) : (keyCapture b s).phase = s.phase := by
  rw [keyCapture_eq, absorb_phase]

/-- A `PUSH` that the counter has room for counts one byte, in either phase and for any parameters. -/
theorem pushWith_of_room {p : Params} {s : State} (b : Byte) (hop : s.op ≠ .idle) (hlen : s.len.toNat < maxLen p) :
    (pushWith p b s).len = s.len + 1 ∧ (pushWith p b s).rsp = some 0x0000#16 := by
  rw [pushWith, if_neg hop, if_neg (Nat.ne_of_lt hlen)]
  split
  · exact ⟨(respond_len _ _).trans (keyCapture_len b s), respond_rsp _ _⟩
  · exact ⟨(respond_len _ _).trans (absorb_len _ s), respond_rsp _ _⟩

/-- Settles O14: MAXLEN of a legal width is at most 2^61 - 1, so that below it the 61-bit register does not wrap. -/
theorem pushAtFullCounterForAllParams : Obligations.PushAtFullCounterForAllParams := by
  refine fun p s b ⟨_, hbits⟩ hop => ⟨pushWith_of_full b hop, fun hlt => ?_⟩
  obtain ⟨hlen, hrsp⟩ := pushWith_of_room b hop hlt
  have hmax : 2 ^ p.lenBits ≤ 2 ^ 61 := Nat.pow_le_pow_right (by decide) hbits
  exact ⟨(congrArg BitVec.toNat hlen).trans (toNat_len_succ (by omega)), hrsp⟩

/-! ### PUSH in a message phase -/

/-- Settles O26: the folded byte is absorbed, and the two cases are those of `Absorb` at `FILL`. -/
theorem pushIntoMessagePhase : Obligations.PushIntoMessagePhase := by
  intro s b c hop hphase hlen hc
  rw [exec_push_msg b hop hphase hlen, streamByte_hw, ← hc]
  refine ⟨fun hlt => ?_, fun h63 => ⟨scheduleOf (setAt s.blk 63 c), varsAfter s.h (setAt s.blk 63 c), ?_⟩⟩
  · rw [absorb_of_fill_lt_63 c hlt]
    rfl
  · rw [absorb_of_fill_eq_63 c h63]
    rfl

/-! ### The stream -/

/-- The response is no part of the stream. -/
theorem Absorbed.respond {s : State} {m : List Byte} (h : Absorbed s m) (d : Byte) : Absorbed (respond d s) m :=
  h.congr rfl rfl rfl rfl

/-- Nor is `K0`. -/
theorem Absorbed.setK0 {s : State} {m : List Byte} (h : Absorbed s m) (k : Vector Byte 64) :
    Absorbed { s with k0 := k } m :=
  h.congr rfl rfl rfl rfl

theorem Absorbed.length_lt {s : State} {m : List Byte} (h : Absorbed s m) (hlen : s.len.toNat < 2 ^ 61 - 1) :
    m.length < 2 ^ 61 - 1 := h.len ▸ hlen

/-- A key byte is appended to the bytes absorbed and to the captured key (R201, R141). -/
theorem absorbed_keyCapture {s : State} {k : List Byte} (hs : Absorbed s k) (hk : KeyCaptured s k) (b : Byte)
    (hlen : s.len.toNat < 2 ^ 61 - 1) :
    Absorbed (keyCapture b s) (k ++ [b]) ∧ KeyCaptured (keyCapture b s) (k ++ [b]) := by
  rw [keyCapture_eq]
  exact ⟨(hs.setK0 _).absorb b (hs.length_lt hlen), keyCaptured_snoc b hs.len hk⟩

/-- Settles O27: the captured byte, or the one the message phase makes of it, is absorbed. -/
theorem pushAppendsToTheStream : Obligations.PushAppendsToTheStream := by
  intro s t b m hop hlen hs hexec
  have hlim := hs.length_lt hlen
  refine ⟨fun hphase hk => ?_, fun hphase hderive => ?_, fun hphase hderive => ?_⟩
  · rw [exec_push_key b hop hphase hlen, ← keyCapture_eq] at hexec
    cases hexec
    obtain ⟨habs, hkey⟩ := absorbed_keyCapture hs hk b hlen
    exact ⟨habs.respond 0x00, hkey⟩
  · rw [exec_push_msg b hop hphase hlen, streamByte_of_ne_derive _ hderive] at hexec
    cases hexec
    exact (hs.absorb b hlim).respond 0x00
  · rw [exec_push_msg b hop hphase hlen, hderive] at hexec
    cases hexec
    exact (hs.absorb (foldByte false b) hlim).respond 0x00

end Sys2Proof.Machine
end

section
/-! PROOFS. Which commands write the valid flags, and what (10_state.md R43). -/

namespace Sys2Proof.Machine

/-- What R43 asks of the flags of the state `t` that an accepted command `i` leaves from `s`. -/
def FlagsAsRuled (i : Instr) (s t : State) : Prop :=
  (i = .sreset ∨ i = .startHash ∨ i = .startHmac ∨ i = .startDerive →
    t.dv = false ∧ t.pv = false ∧ t.kv = false ∧ t.ihv = false) ∧
  (i = .nop ∨ (∃ b, i = .push b) ∨ isRead i = true → SameFlags s t) ∧
  (i = .endStream → s.phase = .key → t.kv = true ∧ t.dv = s.dv ∧ t.pv = s.pv ∧ t.ihv = s.ihv) ∧
  (i = .endStream → s.phase = .msg → s.op = .hash → t.dv = true ∧ t.pv = s.pv ∧ t.kv = s.kv ∧ t.ihv = s.ihv) ∧
  (i = .endStream → s.phase = .msg → s.op = .hmac → t.dv = true ∧ t.ihv = true ∧ t.pv = s.pv ∧ t.kv = s.kv) ∧
  (i = .endStream → s.phase = .msg → s.op = .derive → t.dv = true ∧ t.ihv = true ∧ t.pv = true ∧ t.kv = s.kv)

theorem FlagsAsRuled.respond {i : Instr} {s t : State} (h : FlagsAsRuled i s t) (d : Byte) :
    FlagsAsRuled i s (respond d t) := h

/-- A command of the first group clears the flags. -/
theorem flagsAsRuled_of_cleared {i : Instr} {s t : State}
    (hi : i = .sreset ∨ i = .startHash ∨ i = .startHmac ∨ i = .startDerive)
    (ht : t.dv = false ∧ t.pv = false ∧ t.kv = false ∧ t.ihv = false) : FlagsAsRuled i s t := by
  obtain rfl | rfl | rfl | rfl := hi <;> exact ⟨fun _ => ht, by simp [isRead, readOf], nofun, nofun, nofun, nofun⟩

/-- A command of the second group keeps the flags. -/
theorem flagsAsRuled_of_same {i : Instr} {s t : State} (hi : i = .nop ∨ (∃ b, i = .push b) ∨ isRead i = true)
    (ht : SameFlags s t) : FlagsAsRuled i s t := by
  have hend : i ≠ .endStream := by
    rintro rfl
    simp [isRead, readOf] at hi
  refine ⟨?_, fun _ => ht, fun h => absurd h hend, fun h => absurd h hend, fun h => absurd h hend,
    fun h => absurd h hend⟩
  rintro (rfl | rfl | rfl | rfl) <;> simp [isRead, readOf] at hi

/-- The branches of an accepted command write the flags as R43 says. -/
theorem Accepted.flagsAsRuled {s u : State} {i : Instr} {d : Byte} (h : Accepted s i d u) : FlagsAsRuled i s u := by
  cases h with
  | nop => exact flagsAsRuled_of_same (.inl rfl) ⟨rfl, rfl, rfl, rfl⟩
  | sreset => exact flagsAsRuled_of_cleared (.inl rfl) ⟨rfl, rfl, rfl, rfl⟩
  | startHash => exact flagsAsRuled_of_cleared (.inr (.inl rfl)) ⟨rfl, rfl, rfl, rfl⟩
  | startHmac => exact flagsAsRuled_of_cleared (.inr (.inr (.inl rfl))) ⟨rfl, rfl, rfl, rfl⟩
  | startDerive => exact flagsAsRuled_of_cleared (.inr (.inr (.inr rfl))) ⟨rfl, rfl, rfl, rfl⟩
  | pushKey b =>
    rw [keyCapture_eq]
    exact flagsAsRuled_of_same (.inr (.inl ⟨b, rfl⟩)) ⟨rfl, rfl, rfl, rfl⟩
  | pushMsg b => exact flagsAsRuled_of_same (.inr (.inl ⟨b, rfl⟩)) ⟨rfl, rfl, rfl, rfl⟩
  | endKey _ hphase =>
    obtain ⟨-, k, -, -, q, -, -, -, -, -, he⟩ := endKey_spec s
    rw [he, FlagsAsRuled, hphase]
    exact ⟨by simp, by simp [isRead, readOf], fun _ _ => ⟨rfl, rfl, rfl, rfl⟩, nofun, nofun, nofun⟩
  | endHash hop hphase =>
    obtain ⟨r, -, -, he⟩ := endHash_spec s
    rw [he, FlagsAsRuled, hphase, hop]
    exact ⟨by simp, by simp [isRead, readOf], nofun, fun _ _ _ => ⟨rfl, rfl, rfl, rfl⟩, nofun, nofun⟩
  | endHmac hop hphase =>
    obtain ⟨r, ih, -, -, -, -, -, he⟩ := finishTag_spec s
    rw [he, FlagsAsRuled, hphase, hop]
    exact ⟨by simp, by simp [isRead, readOf], nofun, nofun, fun _ _ _ => ⟨rfl, rfl, rfl, rfl⟩, nofun⟩
  | endDerive hop hphase =>
    obtain ⟨r, ih, -, -, -, -, -, he⟩ := finishTag_spec s
    rw [he, FlagsAsRuled, hphase, hop]
    exact ⟨by simp, by simp [isRead, readOf], nofun, nofun, nofun, fun _ _ _ => ⟨rfl, rfl, rfl, rfl⟩⟩
  | rdStatus | rdErr => exact flagsAsRuled_of_same (.inr (.inr rfl)) ⟨rfl, rfl, rfl, rfl⟩
  | read hread => exact flagsAsRuled_of_same (.inr (.inr (by simp [isRead, hread]))) ⟨rfl, rfl, rfl, rfl⟩

/-- Settles O24: a refusal writes no flag, an accepted command those of its branch. -/
theorem validFlagsWrittenAsRuled : Obligations.ValidFlagsWrittenAsRuled := by
  intro i s t h
  obtain ⟨e, he, rfl⟩ | ⟨hnone, d, u, hacc, rfl⟩ := exec_cases h
  · exact ⟨fun _ => ⟨rfl, rfl, rfl, rfl⟩, fun hnone => absurd (he.symm.trans hnone) nofun⟩
  · exact ⟨fun hne => absurd hnone hne, fun _ => hacc.flagsAsRuled.respond d⟩

end Sys2Proof.Machine
end

section
/-! PROOFS. The control invariant: it holds after a reset and every step keeps it (10_state.md R40, R42, R44, R45, R49
(a), (c) to (f)). -/

namespace Sys2Proof.Machine

/-! ### What the invariant does not speak of -/

/-- The port is the host's, not a register. -/
theorem ControlInv.setPort {s : State} (h : ControlInv s) (rest : List HostEvent) :
    ControlInv { s with port := rest } :=
  ⟨h.t_zero, h.fill_lt, h.fill_len, h.seq, h.key_tail, h.mac_msg, h.dv_idle, h.pv_dv, h.ihv_dv, h.ihv_kv, h.kv_mac,
    h.errcode_le, h.fault_iff⟩

theorem ControlInv.respond {s : State} (h : ControlInv s) (d : Byte) : ControlInv (respond d s) :=
  ⟨h.t_zero, h.fill_lt, h.fill_len, h.seq, h.key_tail, h.mac_msg, h.dv_idle, h.pv_dv, h.ihv_dv, h.ihv_kv, h.kv_mac,
    h.errcode_le, h.fault_iff⟩

/-! ### Reset and errors -/

/-- The reset values of the control registers meet the control invariant, whatever the data registers hold. -/
theorem ControlReset.controlInv {s : State} (h : ControlReset s) : ControlInv s where
  t_zero := h.t
  fill_lt := by rw [h.fill]; decide
  fill_len := fun hop => absurd h.op hop
  seq := ⟨fun _ => h.phase, fun hhash => absurd (h.op.symm.trans hhash) nofun⟩
  key_tail := fun hop => absurd h.op hop
  mac_msg := fun hop => absurd h.op hop
  dv_idle := fun _ => h.op
  pv_dv := fun hpv => absurd (h.pv.symm.trans hpv) nofun
  ihv_dv := fun hihv => absurd (h.ihv.symm.trans hihv) nofun
  ihv_kv := fun hihv => absurd (h.ihv.symm.trans hihv) nofun
  kv_mac := fun hkv => absurd (h.kv.symm.trans hkv) nofun
  errcode_le := by rw [h.errcode]; decide
  fault_iff := by rw [h.fault, h.errcode]; decide

/-- Settles O53: the control registers of `State.reset` are those of R50. -/
theorem controlInvHoldsAtReset : Obligations.ControlInvHoldsAtReset := controlReset_reset.controlInv

/-- The error response records a code of R251 and sets `FAULT` with it. -/
theorem ControlInv.raiseErr {s : State} (h : ControlInv s) (e : Err) : ControlInv (raiseErr e s) where
  t_zero := h.t_zero
  fill_lt := h.fill_lt
  fill_len := h.fill_len
  seq := h.seq
  key_tail := h.key_tail
  mac_msg := h.mac_msg
  dv_idle := h.dv_idle
  pv_dv := h.pv_dv
  ihv_dv := h.ihv_dv
  ihv_kv := h.ihv_kv
  kv_mac := h.kv_mac
  errcode_le := by
    rw [raiseErr_errcode]
    split
    · exact (errCode_range e).2
    · exact h.errcode_le
  fault_iff := by
    rw [raiseErr_fault, raiseErr_errcode]
    split
    · exact iff_of_true rfl (errCode_ne_zero e)
    next hcode => exact iff_of_true rfl hcode

/-! ### START -/

theorem ControlInv.startHash {s : State} (h : ControlInv s) :
    ControlInv (shaInit (clearValid (setSeq .hash .msg s))) where
  t_zero := h.t_zero
  fill_lt := Nat.zero_lt_succ 63
  fill_len := fun _ => rfl
  seq := ⟨nofun, fun _ => rfl⟩
  key_tail := nofun
  mac_msg := fun _ hhash => absurd rfl hhash
  dv_idle := nofun
  pv_dv := nofun
  ihv_dv := nofun
  ihv_kv := nofun
  kv_mac := nofun
  errcode_le := h.errcode_le
  fault_iff := h.fault_iff

/-- `K0` is zeroed when a key phase opens (R183, R184). -/
theorem getAt_zeroKey (i : Nat) : getAt (Vector.replicate 64 (0x00 : Byte)) i = 0x00 := by
  by_cases hi : i < 64
  · simp [getAt, Vector.getD, hi]
  · exact getAt_of_le _ (Nat.le_of_not_lt hi)

theorem ControlInv.openKey {s : State} (h : ControlInv s) {o : Op} (hidle : o ≠ .idle) (hhash : o ≠ .hash) :
    ControlInv (openKey o s) where
  t_zero := h.t_zero
  fill_lt := Nat.zero_lt_succ 63
  fill_len := fun _ => rfl
  seq := ⟨fun ho => absurd ho hidle, fun ho => absurd ho hhash⟩
  key_tail := fun _ _ i _ _ => getAt_zeroKey i
  mac_msg := nofun
  dv_idle := nofun
  pv_dv := nofun
  ihv_dv := nofun
  ihv_kv := nofun
  kv_mac := nofun
  errcode_le := h.errcode_le
  fault_iff := h.fault_iff

/-! ### PUSH -/

theorem absorb_t_zero (b : Byte) {s : State} (h : s.t = 0) : (absorb b s).t = 0 := put_t_zero b _ h

/-- A byte absorbed into an open operation, `K0` taking a value `k` whose tail is zero beyond the new `LEN` (R103,
R141). -/
theorem ControlInv.absorb {s : State} (h : ControlInv s) (hop : s.op ≠ .idle) (hlen : s.len.toNat < 2 ^ 61 - 1)
    (b : Byte) {k : Vector Byte 64} (hk : s.phase = .key → ∀ i, s.len.toNat + 1 ≤ i → i < 64 → getAt k i = 0x00) :
    ControlInv (absorb b { s with k0 := k }) := by
  obtain ⟨hfill, hcount⟩ := absorb_counts b { s with k0 := k } h.fill_lt hlen
  have ht := absorb_t_zero b (s := { s with k0 := k }) h.t_zero
  obtain ⟨r, hr⟩ := absorb_onlyEngine b { s with k0 := k }
  rw [hr] at hfill hcount ht ⊢
  have hcount' : r.len.toNat = s.len.toNat + 1 := hcount
  have hfill' : r.fill.toNat = (s.fill.toNat + 1) % 64 := hfill
  have hsync := h.fill_len hop
  exact
    { t_zero := ht
      fill_lt := (congrArg (· < 64) hfill').mpr (Nat.mod_lt _ (by decide))
      fill_len := fun _ => by
        change r.fill.toNat = r.len.toNat % 64
        omega
      seq := h.seq
      key_tail := fun _ hkey i hi => hk hkey i (hcount' ▸ hi)
      mac_msg := fun hidle hhash hmsg => by
        obtain ⟨hkv, hblock⟩ := h.mac_msg hidle hhash hmsg
        exact ⟨hkv, hcount'.symm ▸ Nat.le_succ_of_le hblock⟩
      dv_idle := h.dv_idle
      pv_dv := h.pv_dv
      ihv_dv := h.ihv_dv
      ihv_kv := h.ihv_kv
      kv_mac := h.kv_mac
      errcode_le := h.errcode_le
      fault_iff := h.fault_iff }

/-- The key byte is written at `LEN`, so `K0` stays zero beyond the captured key (R201, R49 (d)). -/
theorem ControlInv.keyCapture {s : State} (h : ControlInv s) (hop : s.op ≠ .idle) (hphase : s.phase = .key)
    (hlen : s.len.toNat < 2 ^ 61 - 1) (b : Byte) : ControlInv (keyCapture b s) := by
  rw [keyCapture_eq]
  refine h.absorb hop hlen b fun _ i hi h64 => ?_
  rw [if_pos (by omega), getAt_setAt_ne _ _ (by omega)]
  exact h.key_tail hop hphase i (by omega) h64

/-- A message phase does not write `K0` (R202). -/
theorem ControlInv.absorbMsg {s : State} (h : ControlInv s) (hop : s.op ≠ .idle) (hphase : s.phase = .msg)
    (hlen : s.len.toNat < 2 ^ 61 - 1) (b : Byte) : ControlInv (Sys2Proof.Machine.absorb b s) :=
  h.absorb hop hlen b (k := s.k0) fun hkey => absurd (hphase.symm.trans hkey) nofun

/-! ### END -/

theorem ControlInv.flags_of_open {s : State} (h : ControlInv s) (hop : s.op ≠ .idle) :
    s.dv = false ∧ s.pv = false ∧ s.ihv = false := by
  have hdv : s.dv = false := Bool.eq_false_iff.2 fun hdv => hop (h.dv_idle hdv)
  have hno : ¬ s.dv = true := Bool.eq_false_iff.1 hdv
  exact ⟨hdv, Bool.eq_false_iff.2 fun hpv => hno (h.pv_dv hpv), Bool.eq_false_iff.2 fun hihv => hno (h.ihv_dv hihv)⟩

/-- `END` of a key phase counts the 64 bytes of the ipad block and marks the key valid (R204). -/
theorem ControlInv.endKey {s : State} (h : ControlInv s) (hop : s.op ≠ .idle) (hphase : s.phase = .key) :
    ControlInv (endKey s) := by
  obtain ⟨-, k, -, -, q, hlen, hfill, ht, -, -, he⟩ := endKey_spec s
  have hhash := h.seq.op_ne_hash hphase
  rw [he]
  exact
    { t_zero := ht
      fill_lt := by
        change q.fill.toNat < 64
        rw [hfill]; decide
      fill_len := fun _ => by
        change q.fill.toNat = q.len.toNat % 64
        rw [hfill, hlen]; rfl
      seq := ⟨fun hidle => absurd hidle hop, fun _ => rfl⟩
      key_tail := nofun
      mac_msg := fun _ _ _ => ⟨rfl, by
        change 64 ≤ q.len.toNat
        rw [hlen]; decide⟩
      dv_idle := h.dv_idle
      pv_dv := h.pv_dv
      ihv_dv := h.ihv_dv
      ihv_kv := fun _ => rfl
      kv_mac := fun _ => ⟨hhash, fun _ => rfl⟩
      errcode_le := h.errcode_le
      fault_iff := h.fault_iff }

/-- A state back in (IDLE, KEY) meets the invariant if its flags and its counters do (R205, R206). -/
theorem controlInv_of_idle {s : State} (hop : s.op = .idle) (hphase : s.phase = .key) (hfill : s.fill.toNat < 64)
    (ht : s.t = 0) (hpv : s.pv = true → s.dv = true) (hihv : s.ihv = true → s.dv = true ∧ s.kv = true)
    (hcode : s.errcode.toNat ≤ 5) (hfault : s.fault = true ↔ s.errcode ≠ 0x00#8) : ControlInv s where
  t_zero := ht
  fill_lt := hfill
  fill_len := fun h => absurd hop h
  seq := ⟨fun _ => hphase, fun hhash => absurd (hop.symm.trans hhash) nofun⟩
  key_tail := fun h => absurd hop h
  mac_msg := fun h => absurd hop h
  dv_idle := fun _ => hop
  pv_dv := hpv
  ihv_dv := fun h => (hihv h).1
  ihv_kv := fun h => (hihv h).2
  kv_mac := fun _ => ⟨fun hhash => absurd (hop.symm.trans hhash) nofun, fun h => absurd hop h⟩
  errcode_le := hcode
  fault_iff := hfault

theorem ControlInv.endHash {s : State} (h : ControlInv s) : ControlInv (endHash s) := by
  obtain ⟨hfill, ht⟩ := finalize_ranges s h.fill_lt h.t_zero
  obtain ⟨r, hr, -, he⟩ := endHash_spec s
  rw [hr] at hfill ht
  rw [he]
  exact controlInv_of_idle rfl rfl hfill ht (fun _ => rfl) (fun hihv => ⟨rfl, h.ihv_kv hihv⟩) h.errcode_le h.fault_iff

/-- The key of a MAC operation is valid in its message phase, so `IHV` is set beside `KV` (R49 (f)). -/
theorem ControlInv.endHmac {s : State} (h : ControlInv s) (hop : s.op = .hmac) (hphase : s.phase = .msg) :
    ControlInv (setSeq .idle .key (finishTag s)) := by
  obtain ⟨hkv, -⟩ := h.mac_msg (by rw [hop]; nofun) (by rw [hop]; nofun) hphase
  obtain ⟨r, ih, -, -, hfill, ht, -, he⟩ := finishTag_spec s
  rw [he]
  exact controlInv_of_idle rfl rfl ((congrArg (BitVec.toNat · < 64) hfill).mpr (by decide)) ht (fun _ => rfl)
    (fun _ => ⟨rfl, hkv⟩) h.errcode_le h.fault_iff

theorem ControlInv.endDerive {s : State} (h : ControlInv s) (hop : s.op = .derive) (hphase : s.phase = .msg) :
    ControlInv (setSeq .idle .key (finishEncode (finishTag s))) := by
  obtain ⟨hkv, -⟩ := h.mac_msg (by rw [hop]; nofun) (by rw [hop]; nofun) hphase
  obtain ⟨r, ih, -, -, hfill, ht, -, he⟩ := finishTag_spec s
  rw [he, finishEncode_eq]
  exact controlInv_of_idle rfl rfl ((congrArg (BitVec.toNat · < 64) hfill).mpr (by decide)) ht (fun _ => rfl)
    (fun _ => ⟨rfl, hkv⟩) h.errcode_le h.fault_iff

/-! ### Every step -/

theorem ControlInv.accepted {s u : State} {i : Instr} {d : Byte} (h : ControlInv s) (hu : Accepted s i d u) :
    ControlInv u := by
  cases hu with
  | nop | rdStatus | rdErr | read => exact h
  | sreset => exact (controlReset_resetRegs s).controlInv
  | startHash => exact h.startHash
  | startHmac | startDerive => exact h.openKey nofun nofun
  | pushKey b hop hphase hlen => exact h.keyCapture hop hphase hlen b
  | pushMsg b hop hphase hlen => exact h.absorbMsg hop hphase hlen _
  | endKey hop hphase => exact h.endKey hop hphase
  | endHash => exact h.endHash
  | endHmac hop hphase => exact h.endHmac hop hphase
  | endDerive hop hphase => exact h.endDerive hop hphase

/-- Settles O52: resets establish the invariant, errors and the branches of accepted commands keep it. -/
theorem controlInvIsKeptByEveryStep : Obligations.ControlInvIsKeptByEveryStep := fun _ _ =>
  step_keeps (fun _ rest h => h.setPort rest) (fun s => (controlReset_hardReset s).controlInv)
    (fun e _ h => h.raiseErr e) fun _ _ d _ h hu => (h.accepted hu).respond d

end Sys2Proof.Machine
end

section
/-! PROOFS. The whole invariant: an open operation holds the hash of the bytes absorbed, and what a set valid flag
makes readable is a finished result (10_state.md R43, R49). -/

namespace Sys2Proof.Machine

/-! ### The stream of each `SEQ` -/

theorem streamInv_of_idle {s : State} (hop : s.op = .idle) : StreamInv s := by
  rw [StreamInv, hop]
  trivial

theorem streamInv_of_hash {s : State} (hop : s.op = .hash) : StreamInv s ↔ ∃ m, Absorbed s m := by
  rw [StreamInv, hop]

theorem streamInv_of_key {s : State} (hidle : s.op ≠ .idle) (hhash : s.op ≠ .hash) (hphase : s.phase = .key) :
    StreamInv s ↔ ∃ k, Absorbed s k ∧ KeyCaptured s k := by
  rw [StreamInv, hphase]
  cases hop : s.op with
  | idle => exact absurd hop hidle
  | hash => exact absurd hop hhash
  | hmac | derive => rfl

theorem streamInv_of_mac {s : State} (hidle : s.op ≠ .idle) (hhash : s.op ≠ .hash) (hphase : s.phase = .msg) :
    StreamInv s ↔ ∃ m, Absorbed s (padBlock 0x36 s.k0 ++ m) := by
  rw [StreamInv, hphase]
  cases hop : s.op with
  | idle => exact absurd hop hidle
  | hash => exact absurd hop hhash
  | hmac | derive => rfl

/-- `StreamInv` speaks of `SEQ`, `K0` and the hash in progress only. -/
theorem StreamInv.congr {s t : State} (h : StreamInv s) (hop : t.op = s.op) (hphase : t.phase = s.phase)
    (hk0 : t.k0 = s.k0) (habs : ∀ m, Absorbed s m → Absorbed t m) : StreamInv t := by
  by_cases hidle : s.op = .idle
  · exact streamInv_of_idle (hop.trans hidle)
  by_cases hhash : s.op = .hash
  · obtain ⟨m, hm⟩ := (streamInv_of_hash hhash).1 h
    exact (streamInv_of_hash (hop.trans hhash)).2 ⟨m, habs m hm⟩
  rw [← hop] at hidle hhash
  cases hp : s.phase with
  | key =>
    obtain ⟨k, hk, hcap⟩ := (streamInv_of_key (hop ▸ hidle) (hop ▸ hhash) hp).1 h
    refine (streamInv_of_key hidle hhash (hphase.trans hp)).2 ⟨k, habs k hk, ?_⟩
    rwa [KeyCaptured, hk0]
  | msg =>
    obtain ⟨m, hm⟩ := (streamInv_of_mac (hop ▸ hidle) (hop ▸ hhash) hp).1 h
    refine (streamInv_of_mac hidle hhash (hphase.trans hp)).2 ⟨m, habs _ ?_⟩
    rwa [hk0]

/-! ### What the invariant does not speak of -/

theorem Inv.setPort {s : State} (h : Inv s) (rest : List HostEvent) : Inv { s with port := rest } where
  control := h.control.setPort rest
  stream := h.stream.congr rfl rfl rfl fun _ hm => hm.congr rfl rfl rfl rfl
  result := ⟨h.result.digest, h.result.ih, h.result.tag, h.result.pv_ihv, h.result.pw, h.result.fr⟩

theorem Inv.respond {s : State} (h : Inv s) (d : Byte) : Inv (respond d s) where
  control := h.control.respond d
  stream := h.stream.congr rfl rfl rfl fun _ hm => hm.respond d
  result := ⟨h.result.digest, h.result.ih, h.result.tag, h.result.pv_ihv, h.result.pw, h.result.fr⟩

theorem Inv.raiseErr {s : State} (h : Inv s) (e : Err) : Inv (raiseErr e s) where
  control := h.control.raiseErr e
  stream := h.stream.congr rfl rfl rfl fun _ hm => hm.congr rfl rfl rfl rfl
  result := ⟨h.result.digest, h.result.ih, h.result.tag, h.result.pv_ihv, h.result.pw, h.result.fr⟩

/-! ### Nothing readable -/

theorem resultInv_of_unreadable {s : State} (hdv : s.dv = false) (hpv : s.pv = false) (hihv : s.ihv = false) :
    ResultInv s where
  digest := fun h => absurd (hdv.symm.trans h) nofun
  ih := fun h => absurd (hihv.symm.trans h) nofun
  tag := fun h => absurd (hihv.symm.trans h) nofun
  pv_ihv := fun h => absurd (hpv.symm.trans h) nofun
  pw := fun h => absurd (hpv.symm.trans h) nofun
  fr := fun h => absurd (hpv.symm.trans h) nofun

/-- While an operation is open, no result is readable. -/
theorem ControlInv.resultInv_of_open {s : State} (h : ControlInv s) (hop : s.op ≠ .idle) : ResultInv s := by
  obtain ⟨hdv, hpv, hihv⟩ := h.flags_of_open hop
  exact resultInv_of_unreadable hdv hpv hihv

/-- The reset values of the control registers meet the whole invariant, whatever the data registers hold. -/
theorem ControlReset.inv {s : State} (h : ControlReset s) : Inv s :=
  ⟨h.controlInv, streamInv_of_idle h.op, resultInv_of_unreadable h.dv h.pv h.ihv⟩

/-- Settles O55: the control registers of `State.reset` are those of R50. -/
theorem wholeInvHoldsAtReset : Obligations.WholeInvHoldsAtReset := controlReset_reset.inv

/-! ### The stream is kept -/

/-- A key phase begins with no byte absorbed and none captured. -/
theorem streamInv_openKey {s : State} {o : Op} (hidle : o ≠ .idle) (hhash : o ≠ .hash) : StreamInv (openKey o s) :=
  (streamInv_of_key (s := openKey o s) hidle hhash rfl).2 ⟨[], absorbed_shaInit _, fun i _ => getAt_zeroKey i⟩

theorem StreamInv.keyCapture {s : State} (h : StreamInv s) (hidle : s.op ≠ .idle) (hhash : s.op ≠ .hash)
    (hphase : s.phase = .key) (hlen : s.len.toNat < 2 ^ 61 - 1) (b : Byte) : StreamInv (keyCapture b s) := by
  obtain ⟨k, hk, hcap⟩ := (streamInv_of_key hidle hhash hphase).1 h
  rw [← keyCapture_op b s] at hidle hhash
  rw [← keyCapture_phase b s] at hphase
  exact (streamInv_of_key hidle hhash hphase).2 ⟨k ++ [b], absorbed_keyCapture hk hcap b hlen⟩

/-- A message byte is appended behind what the message phase began with. -/
theorem StreamInv.absorbMsg {s : State} (h : StreamInv s) (hidle : s.op ≠ .idle) (hphase : s.phase = .msg)
    (hlen : s.len.toNat < 2 ^ 61 - 1) (b : Byte) : StreamInv (absorb b s) := by
  by_cases hhash : s.op = .hash
  · obtain ⟨m, hm⟩ := (streamInv_of_hash hhash).1 h
    exact (streamInv_of_hash (s := absorb b s) hhash).2 ⟨m ++ [b], hm.absorb b (hm.length_lt hlen)⟩
  · obtain ⟨m, hm⟩ := (streamInv_of_mac hidle hhash hphase).1 h
    refine (streamInv_of_mac (s := absorb b s) hidle hhash hphase).2 ⟨m ++ [b], ?_⟩
    rw [← List.append_assoc]
    exact hm.absorb b (hm.length_lt hlen)

/-- A message phase of HMAC or DERIVE begins with the ipad block alone. -/
theorem streamInv_endKey {s : State} (hidle : s.op ≠ .idle) (hhash : s.op ≠ .hash) : StreamInv (endKey s) := by
  obtain ⟨-, k, -, -, q, -, -, -, -, habs, he⟩ := endKey_spec s
  rw [he]
  refine (streamInv_of_mac (s := { onEngine s q with k0 := k, kv := true, phase := .msg }) hidle hhash rfl).2 ⟨[], ?_⟩
  rw [List.append_nil]
  exact habs.congr rfl rfl rfl rfl

theorem Inv.streamInv_accepted {s u : State} {i : Instr} {d : Byte} (h : Inv s) (hu : Accepted s i d u) :
    StreamInv u := by
  have hhash : s.phase = .key → s.op ≠ .hash := h.control.seq.op_ne_hash
  cases hu with
  | nop | rdStatus | rdErr | read => exact h.stream
  | sreset | endHash | endHmac | endDerive => exact streamInv_of_idle rfl
  | startHash => exact (streamInv_of_hash rfl).2 ⟨[], absorbed_shaInit _⟩
  | startHmac | startDerive => exact streamInv_openKey nofun nofun
  | pushKey b hop hphase hlen => exact h.stream.keyCapture hop (hhash hphase) hphase hlen b
  | pushMsg b hop hphase hlen => exact h.stream.absorbMsg hop hphase hlen _
  | endKey hop hphase => exact streamInv_endKey hop (hhash hphase)

/-! ### The results are finished ones -/

theorem Inv.resultInv_endHash {s : State} (h : Inv s) (hop : s.op = .hash) : ResultInv (endHash s) := by
  obtain ⟨m, hm⟩ := (streamInv_of_hash hop).1 h.stream
  obtain ⟨-, hpv, hihv⟩ := h.control.flags_of_open (by rw [hop]; nofun)
  obtain ⟨w, v, b, he⟩ := endHash_of_absorbed hm
  rw [he]
  exact
    { digest := fun _ => ⟨m, rfl⟩
      ih := fun hset => absurd (hihv.symm.trans hset) nofun
      tag := fun hset => absurd (hihv.symm.trans hset) nofun
      pv_ihv := fun hset => absurd (hpv.symm.trans hset) nofun
      pw := fun hset => absurd (hpv.symm.trans hset) nofun
      fr := fun hset => absurd (hpv.symm.trans hset) nofun }

theorem Inv.resultInv_endHmac {s : State} (h : Inv s) (hop : s.op = .hmac) (hphase : s.phase = .msg) :
    ResultInv (setSeq .idle .key (finishTag s)) := by
  have hidle : s.op ≠ .idle := by rw [hop]; nofun
  obtain ⟨m, hm⟩ := (streamInv_of_mac hidle (by rw [hop]; nofun) hphase).1 h.stream
  obtain ⟨-, hpv, -⟩ := h.control.flags_of_open hidle
  obtain ⟨w, v, b, he⟩ := finishTag_of_absorbed hm
  rw [he]
  exact
    { digest := fun _ => ⟨_, rfl⟩
      ih := fun _ => ⟨m, rfl⟩
      tag := fun _ => rfl
      pv_ihv := fun _ => rfl
      pw := fun hset => absurd (hpv.symm.trans hset) nofun
      fr := fun hset => absurd (hpv.symm.trans hset) nofun }

theorem Inv.resultInv_endDerive {s : State} (h : Inv s) (hop : s.op = .derive) (hphase : s.phase = .msg) :
    ResultInv (setSeq .idle .key (finishEncode (finishTag s))) := by
  have hidle : s.op ≠ .idle := by rw [hop]; nofun
  obtain ⟨m, hm⟩ := (streamInv_of_mac hidle (by rw [hop]; nofun) hphase).1 h.stream
  obtain ⟨w, v, b, he⟩ := finishTag_of_absorbed hm
  rw [he]
  exact
    { digest := fun _ => ⟨_, rfl⟩
      ih := fun _ => ⟨m, rfl⟩
      tag := fun _ => rfl
      pv_ihv := fun _ => rfl
      pw := fun _ => toList_passwordOf _
      fr := fun _ => toList_fragmentOf _ }

/-- `END` of a key phase keeps the operation open. -/
theorem endKey_op (s : State) : (endKey s).op = s.op := keyNormalizeAndInnerStart_op s

theorem Inv.resultInv_accepted {s u : State} {i : Instr} {d : Byte} (h : Inv s) (hu : Accepted s i d u) :
    ResultInv u := by
  have hcontrol := h.control.accepted hu
  cases hu with
  | nop | rdStatus | rdErr | read => exact h.result
  | sreset => exact (controlReset_resetRegs s).inv.result
  | startHash | startHmac | startDerive => exact hcontrol.resultInv_of_open nofun
  | pushKey b hop => exact hcontrol.resultInv_of_open (by rwa [keyCapture_op])
  | pushMsg b hop => exact hcontrol.resultInv_of_open hop
  | endKey hop => exact hcontrol.resultInv_of_open (by rwa [endKey_op])
  | endHash hop => exact h.resultInv_endHash hop
  | endHmac hop hphase => exact h.resultInv_endHmac hop hphase
  | endDerive hop hphase => exact h.resultInv_endDerive hop hphase

theorem Inv.accepted {s u : State} {i : Instr} {d : Byte} (h : Inv s) (hu : Accepted s i d u) : Inv u :=
  ⟨h.control.accepted hu, h.streamInv_accepted hu, h.resultInv_accepted hu⟩

/-- Settles O54: resets establish the invariant, errors and the branches of accepted commands keep it. -/
theorem wholeInvIsKeptByEveryStep : Obligations.WholeInvIsKeptByEveryStep := fun _ _ =>
  step_keeps (fun _ rest h => h.setPort rest) (fun s => (controlReset_hardReset s).inv)
    (fun e _ h => h.raiseErr e) fun _ _ d _ h hu => (h.accepted hu).respond d

end Sys2Proof.Machine
end

section
/-! PROOFS. `FAULT` and `ERRCODE` never influence acceptance or results (10_state.md R44, 60_exceptions.md R260):
every operation commutes with writing another error record. -/

namespace Sys2Proof.Machine

/-- The state with another error record. -/
def withRecord (f : Bool) (c : Byte) (s : State) : State := { s with fault := f, errcode := c }

section
variable (f : Bool) (c : Byte)

/-! ### SHA1CE -/

/-- A loop commutes with what each of its turns commutes with. -/
theorem forUp_commute {σ : Type} (g : σ → σ) (body : Nat → σ → σ) (h : ∀ i r, body i (g r) = g (body i r))
    (start n : Nat) (s : σ) : forUp body start n (g s) = g (forUp body start n s) := by
  induction n with
  | zero => rw [forUp, forUp]
  | succ n ih => rw [forUp_succ, forUp_succ, ih, h]

theorem put_withRecord (b : Byte) (s : State) : put b (withRecord f c s) = withRecord f c (put b s) := by
  by_cases h : s.fill.toNat = 63
  · rw [put_compresses b s h, put_compresses b (withRecord f c s) h, compress_eq, compress_eq]
    rfl
  · rw [put_stores b s h, put_stores b (withRecord f c s) h]
    rfl

theorem absorb_withRecord (b : Byte) (s : State) : absorb b (withRecord f c s) = withRecord f c (absorb b s) :=
  put_withRecord f c b { s with len := s.len + 1 }

theorem padZeros_withRecord (n : Nat) (s : State) : padZeros n (withRecord f c s) = withRecord f c (padZeros n s) := by
  induction n generalizing s with
  | zero => rw [padZeros, padZeros]
  | succ n ih =>
    rw [padZeros, padZeros, put_withRecord, ih]
    exact (apply_ite (withRecord f c) _ _ _).symm

theorem finalize_withRecord (s : State) : finalize (withRecord f c s) = withRecord f c (finalize s) := by
  rw [finalize_eq, finalize_eq, put_withRecord, padZeros_withRecord]
  exact forUp_commute _ _ (fun k r => put_withRecord f c _ r) 0 8 _

theorem absorbPad_withRecord (pad : Byte) (s : State) :
    absorbPad pad (withRecord f c s) = withRecord f c (absorbPad pad s) := by
  rw [absorbPad_eq, absorbPad_eq]
  exact forUp_commute _ _ (fun i r => absorb_withRecord f c _ r) 0 64 s

theorem absorbInnerHash_withRecord (s : State) :
    absorbInnerHash (withRecord f c s) = withRecord f c (absorbInnerHash s) := by
  rw [absorbInnerHash_eq, absorbInnerHash_eq]
  exact forUp_commute _ _ (fun i r => absorb_withRecord f c _ r) 0 20 s

/-! ### HMACW, PUSH and END -/

theorem setSeq_withRecord (o : Op) (p : Phase) (s : State) :
    setSeq o p (withRecord f c s) = withRecord f c (setSeq o p s) := rfl

theorem finishEncode_withRecord (s : State) : finishEncode (withRecord f c s) = withRecord f c (finishEncode s) := rfl

theorem shaInit_withRecord (s : State) : shaInit (withRecord f c s) = withRecord f c (shaInit s) := rfl

theorem outerHash_withRecord (s : State) : outerHash (withRecord f c s) = withRecord f c (outerHash s) := by
  rw [outerHash, outerHash, shaInit_withRecord, absorbPad_withRecord, absorbInnerHash_withRecord, finalize_withRecord]

theorem innerFinish_withRecord (s : State) : innerFinish (withRecord f c s) = withRecord f c (innerFinish s) := by
  rw [innerFinish, innerFinish, finalize_withRecord]
  generalize finalize s = r
  rfl

theorem finishTag_withRecord (s : State) : finishTag (withRecord f c s) = withRecord f c (finishTag s) := by
  rw [finishTag, finishTag, innerFinish_withRecord, outerHash_withRecord]
  generalize outerHash (innerFinish s) = r
  rfl

theorem keyCapture_withRecord (b : Byte) (s : State) :
    keyCapture b (withRecord f c s) = withRecord f c (keyCapture b s) := by
  rw [keyCapture_eq, keyCapture_eq]
  exact absorb_withRecord f c b { s with k0 := if s.len.toNat < 64 then setAt s.k0 s.len.toNat b else s.k0 }

theorem hashLongKey_withRecord (s : State) : hashLongKey (withRecord f c s) = withRecord f c (hashLongKey s) := by
  have hlen : (withRecord f c s).len = s.len := rfl
  rw [hashLongKey, hashLongKey, hlen, finalize_withRecord]
  generalize finalize s = r
  split <;> rfl

theorem keyNormalizeAndInnerStart_withRecord (s : State) :
    keyNormalizeAndInnerStart (withRecord f c s) = withRecord f c (keyNormalizeAndInnerStart s) := by
  rw [keyNormalizeAndInnerStart, keyNormalizeAndInnerStart, hashLongKey_withRecord]
  generalize hashLongKey s = r
  exact absorbPad_withRecord f c ipadC (shaInit { r with kv := true })

theorem endKey_withRecord (s : State) : endKey (withRecord f c s) = withRecord f c (endKey s) := by
  rw [endKey, endKey, keyNormalizeAndInnerStart_withRecord]
  generalize keyNormalizeAndInnerStart s = r
  rfl

theorem endHash_withRecord (s : State) : endHash (withRecord f c s) = withRecord f c (endHash s) := by
  rw [endHash, endHash, finalize_withRecord]
  generalize finalize s = r
  rfl

end

/-! ### Commands -/

theorem spaceValid_withRecord (f : Bool) (c : Byte) (x : Space) (s : State) :
    spaceValid x (withRecord f c s) = spaceValid x s := by cases x <;> rfl

theorem spaceByte_withRecord (f : Bool) (c : Byte) (x : Space) (i : Nat) (s : State) :
    spaceByte x i (withRecord f c s) = spaceByte x i s := by cases x <;> rfl

/-- Acceptance does not depend on the error record. -/
theorem refusalOf_withRecord (f : Bool) (c : Byte) (i : Instr) (s : State) :
    refusalOf i (withRecord f c s) = refusalOf i s := by cases i <;> rfl

/-- An accepted command leaves the same state but for the error record, and only `RD.STATUS` and `RD.ERR` answer
otherwise. -/
theorem Accepted.withRecord {s u : State} {i : Instr} {d : Byte} (h : Accepted s i d u) (f : Bool) (c : Byte) :
    ∃ d' f' c', Accepted (withRecord f c s) i d' (withRecord f' c' u) ∧ (i ≠ .rdStatus → i ≠ .rdErr → d' = d) := by
  cases h with
  | nop => exact ⟨_, f, c, .nop, fun _ _ => rfl⟩
  | sreset => exact ⟨_, false, 0x00, .sreset, fun _ _ => rfl⟩
  | startHash hop => exact ⟨_, f, c, .startHash hop, fun _ _ => rfl⟩
  | startHmac hop => exact ⟨_, f, c, .startHmac hop, fun _ _ => rfl⟩
  | startDerive hop => exact ⟨_, f, c, .startDerive hop, fun _ _ => rfl⟩
  | pushKey b hop hphase hlen =>
    exact ⟨_, f, c, keyCapture_withRecord f c b s ▸ .pushKey b hop hphase hlen, fun _ _ => rfl⟩
  | pushMsg b hop hphase hlen =>
    exact ⟨_, f, c, absorb_withRecord f c _ s ▸ .pushMsg b hop hphase hlen, fun _ _ => rfl⟩
  | endKey hop hphase => exact ⟨_, f, c, endKey_withRecord f c s ▸ .endKey hop hphase, fun _ _ => rfl⟩
  | endHash hop hphase => exact ⟨_, f, c, endHash_withRecord f c s ▸ .endHash hop hphase, fun _ _ => rfl⟩
  | endHmac hop hphase =>
    have hacc := Accepted.endHmac (s := Machine.withRecord f c s) hop hphase
    rw [finishTag_withRecord, setSeq_withRecord] at hacc
    exact ⟨_, f, c, hacc, fun _ _ => rfl⟩
  | endDerive hop hphase =>
    have hacc := Accepted.endDerive (s := Machine.withRecord f c s) hop hphase
    rw [finishTag_withRecord, finishEncode_withRecord, setSeq_withRecord] at hacc
    exact ⟨_, f, c, hacc, fun _ _ => rfl⟩
  | rdStatus => exact ⟨_, f, c, .rdStatus, fun h => absurd rfl h⟩
  | rdErr => exact ⟨_, f, c, .rdErr, fun _ h => absurd rfl h⟩
  | read hread hidx hvalid =>
    exact ⟨_, f, c, .read hread hidx ((spaceValid_withRecord f c _ s).trans hvalid),
      fun _ _ => spaceByte_withRecord f c _ _ s⟩

/-- Settles O16: refusal does not depend on the error record, and the branch of an accepted command commutes with
writing it. -/
theorem errorRecordNeverInfluencesResults : Obligations.ErrorRecordNeverInfluencesResults := by
  intro i s f c
  cases he : refusalOf i s with
  | some e =>
    exact ⟨_, _, exec_of_refusal he, exec_of_refusal ((refusalOf_withRecord f c i s).trans he), rfl, fun _ _ => rfl⟩
  | none =>
    obtain ⟨d, u, hacc⟩ := accepted_of_not_refused he
    obtain ⟨d', f', c', hacc', hdata⟩ := hacc.withRecord f c
    exact ⟨_, _, hacc.exec_eq, hacc'.exec_eq, rfl, fun hs hr => by rw [respond_rsp, respond_rsp, hdata hs hr]⟩

end Sys2Proof.Machine
end

section
/-! PROOFS. No hidden register content ever shows (00_scope.md R3, 10_state.md R48, 93_implementation_defined.md U1,
U2): two states that the host cannot tell apart stay so in every step. -/

namespace Sys2Proof.Machine

/-! ### Two hashes in progress that agree -/

/-- The hash in progress is the same: `H`, `FILL`, `LEN` and the bytes of `BLK` below `FILL`. The rest of `BLK` and
the other SHA1CE registers may differ. -/
structure EngineAgree (s t : State) : Prop where
  h : s.h = t.h
  fill : s.fill = t.fill
  len : s.len = t.len
  blk : ∀ i, i < s.fill.toNat → getAt s.blk i = getAt t.blk i
  fill_lt : s.fill.toNat < 64

/-- With nothing buffered, `H` and `LEN` are all that matters. -/
theorem engineAgree_of_fill_zero {s t : State} (hh : s.h = t.h) (hlen : s.len = t.len) (hs : s.fill = 0)
    (ht : t.fill = 0) : EngineAgree s t where
  h := hh
  fill := hs.trans ht.symm
  len := hlen
  blk := fun i hi => by
    rw [hs] at hi
    exact absurd hi (Nat.not_lt_zero i)
  fill_lt := by rw [hs]; decide

/-- The byte stored at `FILL` extends the agreement. -/
theorem EngineAgree.storeByte_blk {s t : State} (h : EngineAgree s t) (b : Byte) {i : Nat} (hi : i ≤ s.fill.toNat) :
    getAt (setAt s.blk s.fill.toNat b) i = getAt (setAt t.blk t.fill.toNat b) i := by
  have hlt := h.fill_lt
  rw [← h.fill]
  by_cases hfill : s.fill.toNat = i
  · subst hfill
    rw [getAt_setAt_self _ _ _ hlt, getAt_setAt_self _ _ _ hlt]
  · rw [getAt_setAt_ne _ _ hfill, getAt_setAt_ne _ _ hfill]
    exact h.blk i (by omega)

/-- A full block agrees at every byte, so that compressing it gives the same `H`. -/
theorem EngineAgree.put {s t : State} (h : EngineAgree s t) (b : Byte) : EngineAgree (put b s) (put b t) := by
  by_cases h63 : s.fill.toNat = 63
  · have hblk : (storeByte b s).blk = (storeByte b t).blk :=
      eq_of_getAt fun i hi => h.storeByte_blk b (by omega)
    rw [put_compresses b s h63, put_compresses b t (h.fill ▸ h63)]
    refine engineAgree_of_fill_zero ?_ ?_ rfl rfl
    · change (compress _).h = (compress _).h
      rw [compress_h, compress_h, hblk, storeByte_h, storeByte_h, h.h]
    · change (compress _).len = (compress _).len
      rw [compress_len, compress_len]
      exact h.len
  · have hlt := h.fill_lt
    have hsucc : (s.fill + 1).toNat = s.fill.toNat + 1 := by
      rw [BitVec.toNat_add, show (1 : BitVec 7).toNat = 1 from rfl]
      omega
    rw [put_stores b s h63, put_stores b t (h.fill ▸ h63)]
    exact
      { h := h.h
        fill := congrArg (· + 1) h.fill
        len := h.len
        blk := fun i hi => by
          rw [storeByte_fill, hsucc] at hi
          exact h.storeByte_blk b (Nat.le_of_lt_succ hi)
        fill_lt := by
          rw [storeByte_fill, hsucc]
          omega }

theorem EngineAgree.absorb {s t : State} (h : EngineAgree s t) (b : Byte) : EngineAgree (absorb b s) (absorb b t) :=
  EngineAgree.put (s := { s with len := s.len + 1 }) (t := { t with len := t.len + 1 })
    ⟨h.h, h.fill, congrArg (· + 1) h.len, h.blk, h.fill_lt⟩ b

theorem EngineAgree.padZeros {s t : State} (h : EngineAgree s t) (n : Nat) :
    EngineAgree (padZeros n s) (padZeros n t) := by
  induction n generalizing s t with
  | zero => rwa [Machine.padZeros, Machine.padZeros]
  | succ n ih =>
    rw [Machine.padZeros, Machine.padZeros, ← h.fill]
    split
    · exact h
    · exact ih (h.put padFill)

theorem EngineAgree.finalize {s t : State} (h : EngineAgree s t) : EngineAgree (finalize s) (finalize t) := by
  rw [finalize_eq, finalize_eq, ← h.len]
  exact forUp_rel (fun _ => EngineAgree) _ _ 0 8 _ _ ((h.put padMark).padZeros 128) fun _ _ _ _ _ hab => hab.put _

/-! ### Updates that keep two states the same for the host -/

theorem SameForHost.engineAgree {s t : State} (h : SameForHost s t) (hop : s.op ≠ .idle) (hfill : s.fill.toNat < 64) :
    EngineAgree s t :=
  ⟨h.h (.inl hop), h.fill hop, h.len hop, h.blk hop, hfill⟩

/-- Any SHA1CE registers that agree may take the place of the old ones. -/
theorem SameForHost.onEngine {s t p q : State} (h : SameForHost s t) (hpq : EngineAgree p q) :
    SameForHost (onEngine s p) (onEngine t q) :=
  { h with len := fun _ => hpq.len, fill := fun _ => hpq.fill, h := fun _ => hpq.h, blk := fun _ => hpq.blk }

theorem SameForHost.absorb {s t : State} (h : SameForHost s t) (hop : s.op ≠ .idle) (hfill : s.fill.toNat < 64)
    (b : Byte) : SameForHost (absorb b s) (absorb b t) := by
  rw [← onEngine_eq (absorb_onlyEngine b s), ← onEngine_eq (absorb_onlyEngine b t)]
  exact h.onEngine ((h.engineAgree hop hfill).absorb b)

theorem SameForHost.setPort {s t : State} (h : SameForHost s t) (rest : List HostEvent) :
    SameForHost { s with port := rest } { t with port := rest } :=
  { h with port := rfl }

theorem SameForHost.setK0 {s t : State} (h : SameForHost s t) {k l : Vector Byte 64}
    (hkl : (s.op ≠ .idle ∧ s.op ≠ .hash) ∨ s.kv = true → k = l) :
    SameForHost { s with k0 := k } { t with k0 := l } :=
  { h with k0 := hkl }

theorem SameForHost.respond {s t : State} (h : SameForHost s t) (d : Byte) :
    SameForHost (respond d s) (respond d t) :=
  { h with rsp := rfl }

theorem SameForHost.raiseErr {s t : State} (h : SameForHost s t) (e : Err) :
    SameForHost (raiseErr e s) (raiseErr e t) :=
  { h with
    fault := rfl
    errcode := congrArg (fun code => if code = 0x00#8 then errCode e else code) h.errcode
    rsp := rfl }

/-- After a reset nothing of a data register matters. -/
theorem SameForHost.resetRegs {s t : State} (h : SameForHost s t) : SameForHost (resetRegs s) (resetRegs t) where
  op := rfl
  phase := rfl
  dv := rfl
  pv := rfl
  kv := rfl
  ihv := rfl
  fault := rfl
  errcode := rfl
  rsp := h.rsp
  port := h.port
  len := fun _ => rfl
  fill := fun _ => rfl
  h := fun hor => hor.elim (absurd rfl) nofun
  blk := fun hop => absurd rfl hop
  k0 := fun hor => hor.elim (fun ⟨hop, _⟩ => absurd rfl hop) nofun
  ih := nofun
  pw := nofun
  fr := nofun

theorem SameForHost.hardReset {s t : State} (h : SameForHost s t) : SameForHost (hardReset s) (hardReset t) :=
  { h.resetRegs with rsp := rfl }

/-- An opened operation depends on nothing that was in the data registers, where `K0` agrees if the operation uses it.
-/
theorem SameForHost.opened {s t : State} (h : SameForHost s t) (o : Op) (p : Phase) {k l : Vector Byte 64}
    (hkl : o ≠ .hash → k = l) :
    SameForHost (shaInit { clearValid (setSeq o p s) with k0 := k })
      (shaInit { clearValid (setSeq o p t) with k0 := l }) where
  op := rfl
  phase := rfl
  dv := rfl
  pv := rfl
  kv := rfl
  ihv := rfl
  fault := h.fault
  errcode := h.errcode
  rsp := h.rsp
  port := h.port
  len := fun _ => rfl
  fill := fun _ => rfl
  h := fun _ => rfl
  blk := fun _ i hi => absurd hi (Nat.not_lt_zero i)
  k0 := fun hor => hor.elim (fun ⟨_, hhash⟩ => hkl hhash) nofun
  ih := nofun
  pw := nofun
  fr := nofun

/-- Back to idle, only what the valid flags show still matters. -/
theorem SameForHost.close {s t : State} (h : SameForHost s t) :
    SameForHost (setSeq .idle .key s) (setSeq .idle .key t) :=
  { h with
    op := rfl
    phase := rfl
    len := fun hop => absurd rfl hop
    fill := fun hop => absurd rfl hop
    h := fun hor => hor.elim (absurd rfl) fun hdv => h.h (.inr hdv)
    blk := fun hop => absurd rfl hop
    k0 := fun hor => hor.elim (fun ⟨hop, _⟩ => absurd rfl hop) fun hkv => h.k0 (.inr hkv) }

/-! ### Commands -/

theorem SameForHost.statusView_eq {s t : State} (h : SameForHost s t) : statusView s = statusView t := by
  rw [statusView, statusView, h.fault, h.ihv, h.kv, h.pv, h.dv, h.phase, h.op]

theorem SameForHost.spaceValid_eq {s t : State} (h : SameForHost s t) (x : Space) :
    spaceValid x s = spaceValid x t := by
  cases x with
  | digest => exact h.dv
  | pw | frag => exact h.pv
  | k0 | ipad | opad => exact h.kv
  | ih => exact h.ihv

/-- A readable byte is one of a register that must agree. -/
theorem SameForHost.spaceByte_eq {s t : State} (h : SameForHost s t) {x : Space} (hvalid : spaceValid x s = true)
    (i : Nat) : spaceByte x i s = spaceByte x i t := by
  cases x with
  | digest => exact congrArg (digestByte · i) (h.h (.inr hvalid))
  | pw => exact congrArg (getAt · i) (h.pw hvalid)
  | frag => exact congrArg (getAt · i) (h.fr hvalid)
  | k0 => exact congrArg (getAt · i) (h.k0 (.inr hvalid))
  | ipad => exact congrArg (getAt · i ^^^ ipadC) (h.k0 (.inr hvalid))
  | opad => exact congrArg (getAt · i ^^^ opadC) (h.k0 (.inr hvalid))
  | ih => exact congrArg (getAt · i) (h.ih hvalid)

theorem SameForHost.refusalOf_eq {s t : State} (h : SameForHost s t) (i : Instr) : refusalOf i s = refusalOf i t := by
  cases i with
  | nop | sreset | rdStatus | rdErr => rfl
  | startHash | startHmac | startDerive | endStream => rw [refusalOf, refusalOf, h.op]
  | push b =>
    rw [refusalOf, refusalOf, ← h.op]
    by_cases hop : s.op = .idle
    · rw [if_pos hop, if_pos hop]
    · rw [if_neg hop, if_neg hop, h.len hop]
  | rdDigest | rdPw | rdFrag | rdK0 | rdIpad | rdOpad | rdIh =>
    rw [refusalOf_read rfl s, refusalOf_read rfl t, h.spaceValid_eq]

theorem SameForHost.keyCapture {s t : State} (h : SameForHost s t) (hop : s.op ≠ .idle) (hfill : s.fill.toNat < 64)
    (b : Byte) : SameForHost (keyCapture b s) (keyCapture b t) := by
  rw [keyCapture_eq, keyCapture_eq]
  exact (h.setK0 (k := if s.len.toNat < 64 then setAt s.k0 s.len.toNat b else s.k0)
    (l := if t.len.toNat < 64 then setAt t.k0 t.len.toNat b else t.k0)
    fun hk => by rw [h.len hop, h.k0 hk]).absorb hop hfill b

/-- A long key is hashed down to the same bytes, a short one is left alone (R142). -/
theorem EngineAgree.hashLongKey_k0 {s t : State} (h : EngineAgree s t) (hk0 : s.k0 = t.k0) :
    (hashLongKey s).k0 = (hashLongKey t).k0 := by
  have hdigest := congrArg digestKey h.finalize.h
  rw [hashLongKey, hashLongKey, ← h.len]
  generalize Machine.finalize s = p, Machine.finalize t = q at hdigest ⊢
  split
  · exact hdigest
  · exact hk0

theorem SameForHost.endKey {s t : State} (h : SameForHost s t) (hop : s.op ≠ .idle) (hhash : s.op ≠ .hash)
    (hfill : s.fill.toNat < 64) : SameForHost (endKey s) (endKey t) := by
  have hk := (h.engineAgree hop hfill).hashLongKey_k0 (h.k0 (.inl ⟨hop, hhash⟩))
  obtain ⟨r, k, hs, -, p, hplen, hpfill, -, hph, -, hes⟩ := endKey_spec s
  obtain ⟨r', l, ht, -, q, hqlen, hqfill, -, hqh, -, het⟩ := endKey_spec t
  rw [hs, ht] at hk
  have hkl : k = l := hk
  have hpq : EngineAgree p q :=
    engineAgree_of_fill_zero (by rw [hph, hqh, hkl]) (hplen.trans hqlen.symm) hpfill hqfill
  rw [hes, het]
  exact { h.onEngine hpq with phase := rfl, kv := rfl, h := fun _ => hpq.h, k0 := fun _ => hkl }

theorem SameForHost.endHash {s t : State} (h : SameForHost s t) (hop : s.op ≠ .idle) (hfill : s.fill.toNat < 64) :
    SameForHost (endHash s) (endHash t) := by
  have hagree := (h.engineAgree hop hfill).finalize
  have hsame := h.onEngine hagree
  rw [onEngine_eq (finalize_onlyEngine s), onEngine_eq (finalize_onlyEngine t)] at hsame
  rw [Machine.endHash, Machine.endHash]
  generalize finalize s = p, finalize t = q at hagree hsame ⊢
  exact SameForHost.close (s := { p with dv := true }) (t := { q with dv := true })
    { hsame with dv := rfl, h := fun _ => hagree.h }

/-- The tag is one of `K0` and the hash in progress (R143, R144). -/
theorem SameForHost.finishTag {s t : State} (h : SameForHost s t) (hop : s.op ≠ .idle) (hhash : s.op ≠ .hash)
    (hfill : s.fill.toNat < 64) :
    SameForHost (finishTag s) (finishTag t) ∧ (finishTag s).h = (finishTag t).h := by
  have hdigest := congrArg digestView (h.engineAgree hop hfill).finalize.h
  obtain ⟨p, ih, hih, hplen, hpfill, -, hph, hes⟩ := finishTag_spec s
  obtain ⟨q, jh, hjh, hqlen, hqfill, -, hqh, het⟩ := finishTag_spec t
  have heq : ih = jh := hih.trans (hdigest.trans hjh.symm)
  have hpq : EngineAgree p q :=
    engineAgree_of_fill_zero (by rw [hph, hqh, heq, h.k0 (.inl ⟨hop, hhash⟩)]) (hplen.trans hqlen.symm) hpfill hqfill
  rw [hes, het]
  exact ⟨{ h.onEngine hpq with dv := rfl, ihv := rfl, h := fun _ => hpq.h, ih := fun _ => heq }, hpq.h⟩

theorem SameForHost.setResults {s t : State} (h : SameForHost s t) {pw pw' : Vector Byte 12} {fr fr' : Vector Byte 10}
    (hpw : pw = pw') (hfr : fr = fr') :
    SameForHost { s with pw := pw, fr := fr, pv := true } { t with pw := pw', fr := fr', pv := true } :=
  { h with pv := rfl, pw := fun _ => hpw, fr := fun _ => hfr }

theorem SameForHost.finishEncode {s t : State} (h : SameForHost s t) (hh : s.h = t.h) :
    SameForHost (finishEncode s) (finishEncode t) := by
  rw [finishEncode_eq, finishEncode_eq]
  exact h.setResults (congrArg passwordOf hh) (congrArg fragmentOf hh)

/-- A command accepted in one of the two states takes the same branch, with the same answer, in the other. -/
theorem SameForHost.accepted {s t u : State} {i : Instr} {d : Byte} (h : SameForHost s t) (hc : ControlInv s)
    (hu : Accepted s i d u) : ∃ v, Accepted t i d v ∧ SameForHost u v := by
  cases hu with
  | nop => exact ⟨t, .nop, h⟩
  | sreset => exact ⟨_, .sreset, h.resetRegs⟩
  | startHash hop => exact ⟨_, .startHash (h.op ▸ hop), h.opened .hash .msg (k := s.k0) (l := t.k0) (absurd rfl)⟩
  | startHmac hop => exact ⟨_, .startHmac (h.op ▸ hop), h.opened .hmac .key fun _ => rfl⟩
  | startDerive hop => exact ⟨_, .startDerive (h.op ▸ hop), h.opened .derive .key fun _ => rfl⟩
  | pushKey b hop hphase hlen =>
    exact ⟨_, .pushKey b (h.op ▸ hop) (h.phase ▸ hphase) (h.len hop ▸ hlen), h.keyCapture hop hc.fill_lt b⟩
  | pushMsg b hop hphase hlen =>
    refine ⟨_, .pushMsg b (h.op ▸ hop) (h.phase ▸ hphase) (h.len hop ▸ hlen), ?_⟩
    rw [← h.op]
    exact h.absorb hop hc.fill_lt _
  | endKey hop hphase =>
    exact ⟨_, .endKey (h.op ▸ hop) (h.phase ▸ hphase), h.endKey hop (hc.seq.op_ne_hash hphase) hc.fill_lt⟩
  | endHash hop hphase =>
    exact ⟨_, .endHash (h.op ▸ hop) (h.phase ▸ hphase), h.endHash (by rw [hop]; nofun) hc.fill_lt⟩
  | endHmac hop hphase =>
    obtain ⟨htag, -⟩ := h.finishTag (by rw [hop]; nofun) (by rw [hop]; nofun) hc.fill_lt
    exact ⟨_, .endHmac (h.op ▸ hop) (h.phase ▸ hphase), htag.close⟩
  | endDerive hop hphase =>
    obtain ⟨htag, hh⟩ := h.finishTag (by rw [hop]; nofun) (by rw [hop]; nofun) hc.fill_lt
    exact ⟨_, .endDerive (h.op ▸ hop) (h.phase ▸ hphase), (htag.finishEncode hh).close⟩
  | rdStatus => exact ⟨t, h.statusView_eq ▸ .rdStatus, h⟩
  | rdErr => exact ⟨t, h.errcode ▸ .rdErr, h⟩
  | read hread hidx hvalid =>
    exact ⟨t, h.spaceByte_eq hvalid _ ▸ .read hread hidx ((h.spaceValid_eq _).symm.trans hvalid), h⟩

/-- One command word, in two states that the host cannot tell apart. -/
theorem SameForHost.execWord {s t : State} (h : SameForHost s t) (hc : ControlInv s) (w : Cmd) :
    ∃ s' t', execWord w s = .next s' ∧ execWord w t = .next t' ∧ SameForHost s' t' := by
  cases hw : decode w with
  | error r => exact ⟨_, _, by rw [Machine.execWord, hw], by rw [Machine.execWord, hw], h.raiseErr .illegal⟩
  | ok i =>
    rw [execWord_of_decode hw, execWord_of_decode hw]
    cases he : refusalOf i s with
    | some e =>
      exact ⟨_, _, exec_of_refusal he, exec_of_refusal ((h.refusalOf_eq i).symm.trans he), h.raiseErr e⟩
    | none =>
      obtain ⟨d, u, hu⟩ := accepted_of_not_refused he
      obtain ⟨v, hv, huv⟩ := h.accepted hc hu
      exact ⟨_, _, hu.exec_eq, hv.exec_eq, huv.respond d⟩

/-- Settles O57: both states take the same event, and a command word is refused in both or takes the same branch in
both. -/
theorem hiddenContentNeverShows : Obligations.HiddenContentNeverShows := by
  intro s t h hc
  cases hport : s.port with
  | nil => exact ⟨s, t, step_no_event hport, step_no_event (h.port ▸ hport), h⟩
  | cons ev rest =>
    have hport' : t.port = ev :: rest := h.port ▸ hport
    cases ev with
    | hardReset => exact ⟨_, _, step_hardReset hport, step_hardReset hport', (h.setPort rest).hardReset⟩
    | command w =>
      rw [step_command hport, step_command hport']
      exact (h.setPort rest).execWord (hc.setPort rest) w

end Sys2Proof.Machine
end
